-- ==== Sys2Proof/Word.lean ====
section
/-!
DEFINITION. The widths of spec/00_scope.md R3: general registers of 64 bits, effective addresses and `pc` of
32 bits, instruction words of 32 bits, memory in bytes of 8 bits, register numbers 0 to 31.
-/

namespace Sys2Proof

/-- The contents of a general register, `u64` (R3 `GPR_WIDTH`). -/
abbrev Word := BitVec 64

/-- A byte address, `u32` (R3 `EA_WIDTH`, `PC_WIDTH`). -/
abbrev Addr := BitVec 32

/-- An instruction word, `u32` (R3 `INSTR_WIDTH`). -/
abbrev InstrWord := BitVec 32

/-- One byte of memory, `u8` (R3 `MEM_UNIT`). -/
abbrev Byte := BitVec 8

/-- The number of a general register, `r0` to `r31` (R3 `GPR_COUNT`, R10). -/
abbrev RegNum := Fin 32

/-- The displacement field `dfld` of the D form, 16 bits (R36). -/
abbrev Disp := BitVec 16

end Sys2Proof
end

