-- ==== Sys2Proof/Config.lean ====
section
/-!
DEFINITION. What the spec leaves to the run or the implementation: the parameters of spec/00_scope.md R3 that it
calls model arguments, as plain data (State holds them, so that a statement is over every value of them), and the three
free values, which nothing in Lean can evaluate.
-/

namespace Sys2Proof

/-- `RC1_POLICY` (R3, R44): what a word with the `stbx` or `stbux` pattern and bit `w[0]` = 1 does. -/
inductive Rc1Policy where
  /-- The spec's default: the word is refused, reason `ReservedRcBit`. -/
  | refuse
  /-- The named alternative: execute as if the bit were 0. -/
  | ignoreBit
  deriving DecidableEq, Repr

/-- `INVALID_FORM_POLICY` (R3, R46): what `stbu` and `stbux` with RA = 0 do. -/
inductive InvalidFormPolicy where
  /-- The spec's default: the form is refused, reason `InvalidFormRA0`. -/
  | refuse
  /-- The named alternative: execute R56 and R58 with `x[0]` as an ordinary base. -/
  | asSnapshot
  deriving DecidableEq, Repr

/-- The byte addresses from `first` to `last`, both included. -/
structure Region where
  first : Addr
  last  : Addr
  deriving DecidableEq, Repr

/-- The parameters of a run (R3, R70). DESIGN CHOICE (log 5): they stand in State as data; no step changes them. -/
structure Params where
  /-- `Admit` (R26): the byte addresses a store may write, as a union of regions. -/
  admitRegions : List Region
  /-- `Code` (R70): the byte addresses that hold the program text, as a union of regions. -/
  code : List Region
  /-- The exponent of `RESV_GRANULE` (R3): the granule is 2 to this power, in bytes. -/
  granuleLog : Nat
  invalidFormPolicy : InvalidFormPolicy
  rc1Policy : Rc1Policy
  deriving DecidableEq, Repr

/-- FREE VALUE (R14, `93_implementation_defined.md` U5; log 7): whether the storing thread's own reservation on the
granule of EA survives the store. Applied to State's counter `draws`. -/
opaque Config.ownReservationSurvives : Nat → Bool

/-- FREE VALUE (R77, "any thread may take the next step"; log 8): the number, cut to the number of threads, of the
thread that steps next. Applied to State's counter `draws`. -/
opaque Config.nextThread : Nat → Nat

/-- FREE VALUE (R31 (b), `93_implementation_defined.md` U11; log 9): how many of the stores to its byte that other
threads have made already stand after a new store in the coherence order of that byte, cut to what (b) admits. Applied
to State's counter `draws`. -/
opaque Config.coherencePlace : Nat → Nat

end Sys2Proof
end

