-- ==== Sys2Proof/Syntax.lean ====
section
/-!
DEFINITION. The four instructions of spec/opcode_table.json, each with the operand fields of its format
(spec/30_encoding.md R36, R37). The Rc bit of the X form is no operand: the decoder settles it (R44).
-/

namespace Sys2Proof

/-- One constructor per row of spec/opcode_table.json. -/
inductive Instr where
  /-- `stb RS, d(RA0)`, Store Byte (R55). -/
  | stb (rs ra : RegNum) (d : Disp)
  /-- `stbu RS, d(RA)`, Store Byte with Update (R56). -/
  | stbu (rs ra : RegNum) (d : Disp)
  /-- `stbx RS, RA0, RB`, Store Byte Indexed (R57). -/
  | stbx (rs ra rb : RegNum)
  /-- `stbux RS, RA, RB`, Store Byte with Update Indexed (R58). -/
  | stbux (rs ra rb : RegNum)
  deriving DecidableEq, Repr

end Sys2Proof
end

