-- ==== Sys2Proof/Decode.lean ====
section
/-!
DEFINITION. The decoder of spec/30_encoding.md (R38 fields, R43 procedure, R44 the Rc bit, R45 words outside the
table), total on every word and on every list of bytes, and after it the encoder of R38. RA = 0 in an update form
decodes: it is "well-formed bits but an invalid form" (R46), which the meaning of the instruction refuses.
-/

namespace Sys2Proof

/-- Why a word is no instruction of the spec. -/
inductive Reject where
  /-- The word matches no row of R42 (R45). -/
  | notInSpec (w : InstrWord)
  /-- The `stbx` or `stbux` pattern with bit `w[0]` = 1, under `RC1_POLICY` = `refuse` (R44). -/
  | reservedRcBit
  deriving DecidableEq, Repr

/-- Why a list of bytes does not begin with an instruction of the spec. -/
inductive ByteReject where
  /-- There are fewer than the four bytes of an instruction word (R35). The machine's fetch always reads four. -/
  | tooShort
  /-- The first four bytes form a word that is rejected. -/
  | word (r : Reject)
  deriving DecidableEq, Repr

/-! ### Fields (R38) -/

/-- `OPCD = w[31:26]`. -/
def opcdField (w : InstrWord) : BitVec 6 := w.extractLsb' 26 6

/-- `RS = w[25:21]`. -/
def rsField (w : InstrWord) : RegNum := (w.extractLsb' 21 5).toFin

/-- `RA = w[20:16]`. -/
def raField (w : InstrWord) : RegNum := (w.extractLsb' 16 5).toFin

/-- `RB = w[15:11]`, X form only. -/
def rbField (w : InstrWord) : RegNum := (w.extractLsb' 11 5).toFin

/-- `XO = w[10:1]`, X form only. -/
def xoField (w : InstrWord) : BitVec 10 := w.extractLsb' 1 10

/-- `Rc = w[0:0]`, X form only. -/
def rcField (w : InstrWord) : BitVec 1 := w.extractLsb' 0 1

/-- `dfld = w[15:0]`, D form only. -/
def dField (w : InstrWord) : Disp := w.extractLsb' 0 16

/-! ### Decoding -/

/-- An X-form word that names `i`, after the Rc bit has been looked at (R44). -/
def decodeRc (p : Rc1Policy) (w : InstrWord) (i : Instr) : Except Reject Instr :=
  if rcField w = 1#1 ∧ p = .refuse then .error .reservedRcBit else .ok i

/-- The procedure of R43. -/
def decodeWord (p : Rc1Policy) (w : InstrWord) : Except Reject Instr :=
  if opcdField w = 38#6 then .ok (.stb (rsField w) (raField w) (dField w))
  else if opcdField w = 39#6 then .ok (.stbu (rsField w) (raField w) (dField w))
  else if opcdField w = 31#6 then
    if xoField w = 215#10 then decodeRc p w (.stbx (rsField w) (raField w) (rbField w))
    else if xoField w = 247#10 then decodeRc p w (.stbux (rsField w) (raField w) (rbField w))
    else .error (.notInSpec w)
  else .error (.notInSpec w)

/-- Four bytes at ascending addresses as a word: `mem[pc] ‖ mem[pc+1] ‖ mem[pc+2] ‖ mem[pc+3]`, big-endian (R22). -/
def wordOfBytes (b0 b1 b2 b3 : Byte) : InstrWord := b0 ++ b1 ++ b2 ++ b3

/-- The instruction at the head of a list of bytes, and the bytes after it. -/
def decodeBytes (p : Rc1Policy) : List Byte → Except ByteReject (Instr × List Byte)
  | b0 :: b1 :: b2 :: b3 :: rest =>
    match decodeWord p (wordOfBytes b0 b1 b2 b3) with
    | .ok i => .ok (i, rest)
    | .error e => .error (.word e)
  | _ => .error .tooShort

/-- The bytes of a word in memory order (R22). -/
def bytesOfWord (w : InstrWord) : List Byte :=
  [w.extractLsb' 24 8, w.extractLsb' 16 8, w.extractLsb' 8 8, w.extractLsb' 0 8]

/-- The instruction the decoder reads from the word of `nbits` bits `w`, laid out in memory order, under the spec's
default `RC1_POLICY` (R44, D1). Bits above `nbits` are 0. -/
def decodeTableWord (nbits w : Nat) : Option Instr :=
  match decodeBytes .refuse (bytesOfWord (BitVec.ofNat 32 (w % 2 ^ nbits))) with
  | .ok (i, _) => some i
  | .error _ => none

/-! ### Encoding (R38: "assembly is the inverse") -/

/-- A register number as a 5-bit field. -/
def regField (r : RegNum) : BitVec 5 := .ofFin r

/-- The D form: OPCD, RS, RA, dfld (R36). -/
def encodeD (opcd : BitVec 6) (rs ra : RegNum) (d : Disp) : InstrWord :=
  opcd ++ regField rs ++ regField ra ++ d

/-- The X form: OPCD = 31, RS, RA, RB, XO, Rc = 0 (R37). -/
def encodeX (xo : BitVec 10) (rs ra rb : RegNum) : InstrWord :=
  31#6 ++ regField rs ++ regField ra ++ regField rb ++ xo ++ 0#1

/-- The word of an instruction (R42). -/
def encode : Instr → InstrWord
  | .stb rs ra d => encodeD 38#6 rs ra d
  | .stbu rs ra d => encodeD 39#6 rs ra d
  | .stbx rs ra rb => encodeX 215#10 rs ra rb
  | .stbux rs ra rb => encodeX 247#10 rs ra rb

end Sys2Proof
end

