-- ==== Sys2Proof/Machine/State.lean ====
section
/-!
DEFINITION. The state of spec/10_state.md as plain data, the reasons a step stops (spec/60_exceptions.md R66), and
the state after reset. The spec gives no reset value (R19, R80): every value in `State.reset` is named in the log.
-/

namespace Sys2Proof.Machine

/-- The three bits of XER the spec names (R16). -/
structure Xer where
  ca : Bool
  ov : Bool
  so : Bool
  deriving DecidableEq, Repr

/-- The registers the spec names and no instruction of it touches (R16, R17). DESIGN CHOICE (log 16): the spec gives
neither their widths nor how many there are, so a value is a natural number and a file is a list of values; a field
or register past the end of its list holds 0. -/
structure NamedRegs where
  /-- The fields of the condition register. -/
  cr : List Nat
  xer : Xer
  /-- The floating-point registers `f[]`. -/
  fpr : List Nat
  /-- The vector registers `v[]`. -/
  vr : List Nat
  deriving DecidableEq, Repr

/-- The one fault of R66. -/
inductive Fault where
  /-- R67: a store computed `ea` and `Admit(ea)` is false. Raised by all four instructions. SAFE: the thread stops
  where the processor does something the spec does not describe. -/
  | storeNotAdmitted (ea : Addr)
  deriving DecidableEq, Repr

/-- What each hardware thread has of its own (R10, R11, R13, R66). -/
structure ThreadState where
  /-- The general registers `r0` to `r31` (R10). -/
  x : Vector Word 32
  /-- The program counter (R11). -/
  pc : Addr
  /-- `end_pc` (R83), the launch argument that says where the thread's run ends; `none`: no end is named. -/
  endPc : Option Addr
  /-- The mark of a fault (R7, R66): the thread has gone wrong, for this reason, for the rest of the run. -/
  fault : Option Fault
  named : NamedRegs
  deriving DecidableEq, Repr

/-- Memory (R12): the bytes that differ from 0, by address, addresses strictly rising. An unlisted address reads 0
(DESIGN CHOICE, log 3). -/
abbrev Memory := List Host.Cell

/-- A reservation (R14): who holds it, and the first byte of its granule. -/
structure Reservation where
  owner : Nat
  base  : Addr
  deriving DecidableEq, Repr

/-- A store event (R31): thread, program-order index, address, byte. -/
structure StoreEvent where
  thread : Nat
  index  : Nat
  addr   : Addr
  byte   : Byte
  deriving DecidableEq, Repr

/-- The machine of spec/10_state.md: the threads, of which `cur` is the one whose step is next (its number is the
length of `before`), and what they share (R13). -/
structure State where
  /-- The threads numbered below the one that moves next, in the order of their numbers. -/
  before : List ThreadState
  /-- The thread that moves next. -/
  cur : ThreadState
  /-- The threads numbered above the one that moves next, in the order of their numbers. -/
  after : List ThreadState
  mem : Memory
  /-- The memory of the launch state (R19), whose bytes a load may still return (R31 (c)). -/
  launchMem : Memory
  /-- The reservation table (R14), a set. -/
  resv : List Reservation
  /-- The stores since launch, NEWEST FIRST (R31); their addresses are the set `written` of R33. -/
  history : List StoreEvent
  /-- The same stores in coherence order (R31 (b)): of two stores to one byte the one nearer the head is the later.
  Between stores to different bytes the order of this list says nothing (log 10). -/
  coherence : List StoreEvent
  /-- The MODEL's own counter, which the free values of Config are applied to (log 7, log 8, log 9). -/
  draws : Nat
  params : Params
  deriving DecidableEq, Repr

/-- The refusals of R66, each of which ends the whole run, and the arm of an instruction without a meaning. -/
inductive Refusal where
  /-- Raised by an arm of `exec` whose instruction has no meaning yet. SAFE: the model stops. -/
  | notModelled (mnemonic : String)
  /-- `pc` is not a multiple of 4 at the start of a step (R11, R24). Raised by the fetch. SAFE: the model stops. -/
  | pcMisaligned
  /-- One of the bytes `pc … pc+3` is in neither `Code` nor `Admit` (R22, R70). Raised by the fetch. SAFE: the model
  stops. -/
  | fetchNotAdmitted
  /-- One of the bytes `pc … pc+3` was stored to since launch (R33). Raised by the fetch. SAFE: the model stops. -/
  | fetchOfWrittenCode
  /-- The fetched word matches no row of the opcode table (R45). Raised by the step. SAFE: the model stops. -/
  | notInSpec (w : InstrWord)
  /-- The `stbx` or `stbux` pattern with bit `w[0]` = 1, under `RC1_POLICY` = `refuse` (R44). Raised by the step.
  SAFE: the model stops. -/
  | reservedRcBit
  /-- `stbu` or `stbux` with RA = 0, under `INVALID_FORM_POLICY` = `refuse` (R46). Raised by those two instructions.
  SAFE: the model stops. -/
  | invalidFormRA0
  /-- `pc + 4` would leave the 32-bit space (R11). Raised by all four instructions, last of all checks (R69). SAFE:
  the model stops. -/
  | pcWrap
  deriving DecidableEq, Repr

/-- What a step, an instruction or a part of one answers. -/
abbrev Result := Host.Outcome State Fault Refusal

/-- The registers the spec only names, all 0 (DESIGN CHOICE, log 16). -/
def NamedRegs.reset : NamedRegs := { cr := [], xer := ⟨false, false, false⟩, fpr := [], vr := [] }

/-- A thread at reset: registers 0 (DESIGN CHOICE, log 1), `pc` 0x100 and no end named (DESIGN CHOICE, log 2), no fault
recorded (R82 (5)). -/
def ThreadState.reset : ThreadState :=
  { x := Vector.replicate 32 0#64, pc := 0x100#32, endPc := none, fault := none, named := NamedRegs.reset }

/-- The parameters at reset (DESIGN CHOICE, log 4): `Admit` every address, `Code` empty, `RESV_GRANULE` 128; the two
policies as the spec defaults them (R3). -/
def Params.reset : Params :=
  { admitRegions := [⟨0x00000000#32, 0xFFFFFFFF#32⟩], code := [], granuleLog := 7,
    invalidFormPolicy := .refuse, rc1Policy := .refuse }

/-- The machine after reset: one thread, memory with nothing listed, no reservation, no store yet. The spec has no
reset (R80, R81); this is one launch state, every value of it named in the log (1, 2, 3, 4, 16). -/
def State.reset : State :=
  { before := [], cur := ThreadState.reset, after := [], mem := [], launchMem := [], resv := [], history := [],
    coherence := [], draws := 0, params := Params.reset }

end Sys2Proof.Machine
end

