-- ==== Sys2Proof/Machine/Ops.lean ====
section
/-!
DEFINITION. The named operations every meaning is made of: registers (R6, R10), memory (R20), the reservation table
(R14), the store history and the coherence order (R31, R33), the program counter (R11), the fetch (R22, R33, R70), the
mark of a fault (R66) and the passing of the turn to the next thread (R77). The spec describes no exception entry and no return from one (R62, R72, R73): there is no
such operation here. A fault or refusal of an instruction carries no state, so the state it leaves is the one before (R54, R67).
-/

namespace Sys2Proof

/-- The region holds byte address `a`. -/
def Region.contains (r : Region) (a : Nat) : Bool :=
  decide (r.first.toNat ≤ a) && decide (a ≤ r.last.toNat)

/-- `Admit(a)` (R26): a store may write byte address `a`. -/
def Params.admits (p : Params) (a : Nat) : Bool := p.admitRegions.any (·.contains a)

/-- A fetch may read byte address `a`: it lies in `Code` or in `Admit` (R70). -/
def Params.fetchable (p : Params) (a : Nat) : Bool := p.code.any (·.contains a) || p.admits a

/-- `RESV_GRANULE` in bytes, a power of two (R3). -/
def Params.granule (p : Params) : Nat := 2 ^ p.granuleLog

namespace Machine

/-! ### Outcomes (R7) -/

/-- Go on from a next state; a fault or a refusal ends it. -/
def andThen (r : Result) (f : State → Result) : Result :=
  match r with
  | .next s => f s
  | .fault e => .fault e
  | .refused e => .refused e

/-- Change the state of a next outcome. -/
def mapNext (f : State → State) (r : Result) : Result := andThen r fun s => .next (f s)

/-! ### General registers (R6, R10) -/

/-- `x[r]` of the thread that moves. -/
def readGpr (r : RegNum) (s : State) : Word := s.cur.x[r.val]

/-- `x[r] <- v` of the thread that moves. No register is hardwired (R10). -/
def writeGpr (r : RegNum) (v : Word) (s : State) : State :=
  { s with cur := { s.cur with x := s.cur.x.set r.val v } }

/-! ### Memory (R12, R20) -/

/-- What an address that nothing lists reads as. DESIGN CHOICE (log 3). -/
def unlistedByte : Byte := 0#8

/-- The byte at address `a`. -/
def Memory.read : Memory → Nat → Byte
  | [], _ => unlistedByte
  | (k, v) :: m, a => if k = a then v else Memory.read m a

/-- Address `a` no longer listed. -/
def Memory.forget (m : Memory) (a : Nat) : Memory := m.filter fun c => c.1 ≠ a

/-- The entry `(a, b)` put before the first entry whose address is not below `a`. -/
def Memory.enter : Memory → Nat → Byte → Memory
  | [], a, b => [(a, b)]
  | (k, v) :: m, a, b => if k < a then (k, v) :: Memory.enter m a b else (a, b) :: (k, v) :: m

/-- `mem'` of R20: the byte at `a` becomes `b`, no other byte changes. Keeps the canonical form. -/
def Memory.write (m : Memory) (a : Nat) (b : Byte) : Memory :=
  if b = unlistedByte then m.forget a else (m.forget a).enter a b

/-- Every listed address is at least `lo` and below 2^32, the addresses rise strictly, and no byte equals what an
unlisted address reads as. -/
def Memory.wfFrom : Nat → Memory → Bool
  | _, [] => true
  | lo, (k, v) :: m => decide (lo ≤ k) && decide (k < 2 ^ 32) && decide (v ≠ unlistedByte) && Memory.wfFrom (k + 1) m

/-- The canonical form of memory. -/
def Memory.wf (m : Memory) : Bool := Memory.wfFrom 0 m

/-- The big-endian word at byte addresses `a` to `a + 3` (R21, R22). -/
def Memory.readWordBE (m : Memory) (a : Nat) : InstrWord :=
  wordOfBytes (m.read a) (m.read (a + 1)) (m.read (a + 2)) (m.read (a + 3))

/-- The byte of the machine's memory at address `a`. -/
def readByte (a : Nat) (s : State) : Byte := s.mem.read a

/-! ### Threads -/

/-- The number of the thread that moves. -/
def tid (s : State) : Nat := s.before.length

/-- All threads, in the order of their numbers. -/
def threads (s : State) : List ThreadState := s.before ++ s.cur :: s.after

/-! ### Store history and coherence order (R31) and the set `written` (R33) -/

/-- How many stores of thread `t` the history holds: the program-order index of its next one. -/
def storeCount (t : Nat) (h : List StoreEvent) : Nat := h.countP (·.thread == t)

/-- Byte address `a` was stored to since launch (R33). -/
def written (a : Nat) (s : State) : Bool := s.history.any (·.addr.toNat == a)

/-- The event of a store of `v` at `ea` by the thread that moves (R31). -/
def storeEvent (ea : Addr) (v : Byte) (s : State) : StoreEvent := ⟨tid s, storeCount (tid s) s.history, ea, v⟩

/-- The byte at `ea` becomes `v` (R20), recorded as the newest store event (R31). At this point it is the last store of
its byte; where the coherence order puts it beside other threads' stores, `settle` says. -/
def recordStore (ea : Addr) (v : Byte) (s : State) : State :=
  { s with
    mem := s.mem.write ea.toNat v
    history := storeEvent ea v s :: s.history
    coherence := storeEvent ea v s :: s.coherence }

/-- The stores to byte address `a`, in coherence order, the last one first (R31 (b)). -/
def storesTo (a : Nat) (s : State) : List StoreEvent := s.coherence.filter (·.addr.toNat == a)

/-- The first event of the list at byte address `a`. -/
def lastStore (a : Nat) (h : List StoreEvent) : Option StoreEvent := h.find? (·.addr.toNat == a)

/-- The byte at `a` that a coherence order leaves: its last store to `a`, else the launch value (R31). -/
def coherentByte (a : Nat) (c : List StoreEvent) (launch : Memory) : Byte :=
  match lastStore a c with
  | some e => e.byte
  | none => launch.read a

/-- How many stores at the head of the order of its byte a new store `e` may stand before: those of other threads, down
to the first one of its own thread (R31 (b): a thread's own stores to a byte stay in program order). -/
def coherenceRoom (e : StoreEvent) (c : List StoreEvent) : Nat :=
  ((c.filter (·.addr == e.addr)).takeWhile (·.thread != e.thread)).length

/-- `e` put into a coherence order with `k` stores to its byte after it. -/
def placeStore (k : Nat) (e : StoreEvent) : List StoreEvent → List StoreEvent
  | [] => [e]
  | f :: c =>
    if k = 0 then e :: f :: c
    else f :: placeStore (if f.addr == e.addr then k - 1 else k) e c

/-- The newest store moved behind `k` others in the coherence order of its byte; memory holds what the order leaves. -/
def settleAt (k : Nat) (s : State) : State :=
  match s.coherence with
  | [] => s
  | e :: c =>
    { s with
      coherence := placeStore k e c
      mem := s.mem.write e.addr.toNat (coherentByte e.addr.toNat (placeStore k e c) s.launchMem) }

/-- The place of the newest store in the coherence order of its byte, settled: any place R31 (b) admits, a free value
says which (log 9). Where no other thread has stored to the byte since, there is nothing to choose. -/
def settle (s : State) : State :=
  match s.coherence with
  | [] => s
  | e :: c =>
    if coherenceRoom e c = 0 then s
    else settleAt (Config.coherencePlace s.draws % (coherenceRoom e c + 1)) { s with draws := s.draws + 1 }

/-- `MemWrite(ea, 1, v)` (R6, R20): a fault where `Admit(ea)` is false (R67). -/
def memWrite (ea : Addr) (v : Byte) (s : State) : Result :=
  if s.params.admits ea.toNat then .next (recordStore ea v s) else .fault (.storeNotAdmitted ea)

/-! ### Reservations (R14) -/

/-- The reservation's granule holds byte address `ea`. -/
def Reservation.covers (g : Nat) (r : Reservation) (ea : Addr) : Bool :=
  decide (r.base.toNat ≤ ea.toNat) && decide (ea.toNat < r.base.toNat + g)

/-- The reservation of `r` is still there after thread `t` has stored at `ea`: it lies on another granule, or it is
the storing thread's own and `own` says that it survives (R14; log 7). -/
def survivesStore (g : Nat) (t : Nat) (own : Bool) (ea : Addr) (r : Reservation) : Bool :=
  !r.covers g ea || (r.owner == t && own)

/-- `ResvKill(ea)` (R14, R53). The fate of the storing thread's own reservation is a free value. -/
def resvKill (ea : Addr) (s : State) : State :=
  { s with
    resv := s.resv.filter (survivesStore s.params.granule (tid s) (Config.ownReservationSurvives s.draws) ea)
    draws := s.draws + 1 }

/-! ### Program counter (R11) -/

/-- `pc <- a`. -/
def setPc (a : Addr) (s : State) : State := { s with cur := { s.cur with pc := a } }

/-- `pc <- pc + 4`, refused where it would leave the 32-bit space (R11, R66). -/
def advancePc (s : State) : Result :=
  if s.cur.pc.toNat + 4 < 2 ^ 32 then .next (setPc (s.cur.pc + 4#32) s) else .refused .pcWrap

/-! ### Fetch (R22, R24, R33, R70) -/

/-- The byte addresses of the word at `pc`. -/
def fetchAddrs (s : State) : List Nat :=
  [s.cur.pc.toNat, s.cur.pc.toNat + 1, s.cur.pc.toNat + 2, s.cur.pc.toNat + 3]

/-- The word at `pc`, or the first of the fetch's refusals that applies, in the order of R69. -/
def fetchWord (s : State) : Except Refusal InstrWord :=
  if s.cur.pc.toNat % 4 ≠ 0 then .error .pcMisaligned
  else if !(fetchAddrs s).all s.params.fetchable then .error .fetchNotAdmitted
  else if (fetchAddrs s).any (written · s) then .error .fetchOfWrittenCode
  else .ok (s.mem.readWordBE s.cur.pc.toNat)

/-- The refusal that stands for a word the decoder rejects (R66). -/
def refusalOf : Reject → Refusal
  | .notInSpec w => .notInSpec w
  | .reservedRcBit => .reservedRcBit

/-- Fetch and decode: the instruction at `pc`, or the refusal. -/
def fetchInstr (s : State) : Except Refusal Instr :=
  match fetchWord s with
  | .error r => .error r
  | .ok w =>
    match decodeWord s.params.rc1Policy w with
    | .error e => .error (refusalOf e)
    | .ok i => .ok i

/-! ### Exited, faulted and running threads (R66, R83) -/

/-- The thread that moves has exited: `pc = end_pc` and no fault recorded (R83). A refusal ends the run, so none can be
recorded in a state. -/
def exited (s : State) : Bool := s.cur.endPc == some s.cur.pc && s.cur.fault.isNone

/-- The thread that moves takes a step: it has not exited (R83) and has no fault recorded (R66, R73). -/
def running (s : State) : Bool := !exited s && s.cur.fault.isNone

/-- Mark the thread that moves with a fault (R66). -/
def markFault (e : Fault) (s : State) : State := { s with cur := { s.cur with fault := some e } }

/-- Every thread of the machine has a fault recorded. -/
def allFaulted (s : State) : Bool := (threads s).all (·.fault.isSome)

/-! ### The schedule (R77) -/

/-- Give the turn to thread number `k`. -/
def giveTurn (k : Nat) (s : State) : State :=
  { s with
    before := (threads s).take k
    cur := ((threads s).drop k).headD s.cur
    after := (threads s).drop (k + 1) }

/-- Pass the turn to any thread: a free value says which (log 8). With one thread there is nothing to choose. -/
def passTurn (s : State) : State :=
  if (threads s).length = 1 then s
  else giveTurn (Config.nextThread s.draws % (threads s).length) { s with draws := s.draws + 1 }

/-! ### The end of a thread's step (R7, R66, R77) -/

/-- The machine's step where the thread that moves takes none: the turn passes. When every thread has a fault recorded
no thread can step on, and the machine's outcome is the mover's fault (log 11). -/
def idle (s : State) : Result :=
  match s.cur.fault with
  | some e => if allFaulted s then .fault e else .next (passTurn s)
  | none => .next (passTurn s)

/-- The machine's step when the instruction of the thread that moves has ended so in state `s`: a next state has its
store settled and passes the turn; a fault marks that thread alone, and the others step on; a refusal ends the run. -/
def conclude (s : State) : Result → Result
  | .next t => .next (passTurn (settle t))
  | .fault e => idle (markFault e s)
  | .refused r => .refused r

/-! ### Placing a word for the next step (log 20) -/

/-- Write the four bytes of `w` at byte addresses `a` to `a + 3`, in memory order (R22). -/
def placeWord (a : Nat) (w : InstrWord) (m : Memory) : Memory :=
  (((m.write a (w.extractLsb' 24 8)).write (a + 1) (w.extractLsb' 16 8)).write (a + 2)
    (w.extractLsb' 8 8)).write (a + 3) (w.extractLsb' 0 8)

/-- `w` stands at `pc` as program text loaded from outside: its bytes are in memory, now and at launch, the fetch may
read them, none counts as stored to since launch, and the thread runs: it does not end there and has no fault recorded.
Assumes `pc` a multiple of 4. -/
def placeAtPc (w : InstrWord) (s : State) : State :=
  { s with
    cur := { s.cur with endPc := if s.cur.endPc == some s.cur.pc then none else s.cur.endPc, fault := none }
    mem := placeWord s.cur.pc.toNat w s.mem
    launchMem := placeWord s.cur.pc.toNat w s.launchMem
    history := s.history.filter fun e => !(fetchAddrs s).contains e.addr.toNat
    coherence := s.coherence.filter fun e => !(fetchAddrs s).contains e.addr.toNat
    params :=
      if (fetchAddrs s).all s.params.fetchable then s.params
      else { s.params with code := ⟨s.cur.pc, s.cur.pc + 3#32⟩ :: s.params.code } }

end Machine

end Sys2Proof
end

