-- ==== Sys2Proof/Machine/Operands.lean ====
section
/-!
DEFINITION. The operand forms: the displacement (R39), the RA0 operand (R41), the effective address of each of the
four forms (R50), the stored byte (R51), the value an update form writes to RA (R52), and the check of the update
forms' base (R46).
-/

namespace Sys2Proof.Machine

/-- `D64 = sext_64(dfld)` (R39). -/
def dispValue (d : Disp) : Word := d.signExtend 64

/-- `base0(RA)`: the literal 0 when the field is 0, else the register (R41). -/
def base0 (ra : RegNum) (s : State) : Word := if ra = 0 then 0#64 else readGpr ra s

/-- `EA = trunc_32(A +_64 B)` (R50). -/
def effAddr (a b : Word) : Addr := (a + b).setWidth 32

/-- The effective address of `stb` (R55). -/
def eaStb (ra : RegNum) (d : Disp) (s : State) : Addr := effAddr (base0 ra s) (dispValue d)

/-- The effective address of `stbu` (R56). -/
def eaStbu (ra : RegNum) (d : Disp) (s : State) : Addr := effAddr (readGpr ra s) (dispValue d)

/-- The effective address of `stbx` (R57). -/
def eaStbx (ra rb : RegNum) (s : State) : Addr := effAddr (base0 ra s) (readGpr rb s)

/-- The effective address of `stbux` (R58). -/
def eaStbux (ra rb : RegNum) (s : State) : Addr := effAddr (readGpr ra s) (readGpr rb s)

/-- `trunc_8(x[RS])`, the byte stored (R51). -/
def storedByte (rs : RegNum) (s : State) : Byte := (readGpr rs s).setWidth 8

/-- `zext_64(EA)`, what an update form writes to RA (R52). -/
def updateValue (ea : Addr) : Word := ea.setWidth 64

/-- An update form with RA = 0 is refused under `INVALID_FORM_POLICY` = `refuse` (R46). -/
def checkUpdateBase (ra : RegNum) (s : State) : Result :=
  if ra = 0 ∧ s.params.invalidFormPolicy = .refuse then .refused .invalidFormRA0 else .next s

/-- Steps (2) and (3) of R54: kill the reservations on `ea`, then store the low byte of RS there. -/
def storeByte (rs : RegNum) (ea : Addr) (s : State) : Result :=
  memWrite ea (storedByte rs s) (resvKill ea s)

/-! ### The same by instruction, for statements over all four -/

/-- The effective address of an instruction. -/
def eaOf : Instr → State → Addr
  | .stb _ ra d, s => eaStb ra d s
  | .stbu _ ra d, s => eaStbu ra d s
  | .stbx _ ra rb, s => eaStbx ra rb s
  | .stbux _ ra rb, s => eaStbux ra rb s

/-- The register RS of an instruction. -/
def sourceOf : Instr → RegNum
  | .stb rs _ _ => rs
  | .stbu rs _ _ => rs
  | .stbx rs _ _ => rs
  | .stbux rs _ _ => rs

/-- The register an instruction writes, if any: RA of an update form. -/
def updatedReg : Instr → Option RegNum
  | .stb _ _ _ => none
  | .stbu _ ra _ => some ra
  | .stbx _ _ _ => none
  | .stbux _ ra _ => some ra

end Sys2Proof.Machine
end

