-- ==== Sys2Proof/Machine/StoreByte.lean ====
section
/-!
DEFINITION. The Store Byte family: the meanings of `stb`, `stbu`, `stbx`, `stbux` (spec/40_store_byte.md R55 to R58),
each in the order of effects of R54. None touches a flag (R59).
-/

namespace Sys2Proof.Machine

/-- `stb RS, d(RA0)`, Store Byte (R55). -/
def execStb (rs ra : RegNum) (d : Disp) (s : State) : Result :=
  andThen (storeByte rs (eaStb ra d s) s) advancePc

/-- `stbu RS, d(RA)`, Store Byte with Update (R56): the store first, then RA. -/
def execStbu (rs ra : RegNum) (d : Disp) (s : State) : Result :=
  andThen (checkUpdateBase ra s) fun s =>
    andThen (storeByte rs (eaStbu ra d s) s) fun s' =>
      advancePc (writeGpr ra (updateValue (eaStbu ra d s)) s')

/-- `stbx RS, RA0, RB`, Store Byte Indexed (R57). -/
def execStbx (rs ra rb : RegNum) (s : State) : Result :=
  andThen (storeByte rs (eaStbx ra rb s) s) advancePc

/-- `stbux RS, RA, RB`, Store Byte with Update Indexed (R58): the store first, then RA. -/
def execStbux (rs ra rb : RegNum) (s : State) : Result :=
  andThen (checkUpdateBase ra s) fun s =>
    andThen (storeByte rs (eaStbux ra rb s) s) fun s' =>
      advancePc (writeGpr ra (updateValue (eaStbux ra rb s)) s')

end Sys2Proof.Machine
end

