-- ==== Sys2Proof/Machine/Dispatch.lean ====
section
/-! DEFINITION. One arm per constructor of Instr, each one direct call of that instruction's meaning. -/

namespace Sys2Proof.Machine

/-- What an instruction does (spec/40_store_byte.md R55 to R58). -/
def exec (i : Instr) (s : State) : Host.Outcome State Fault Refusal :=
  match i with
  | .stb rs ra d => Sys2Proof.Machine.execStb rs ra d s
  | .stbu rs ra d => Sys2Proof.Machine.execStbu rs ra d s
  | .stbx rs ra rb => Sys2Proof.Machine.execStbx rs ra rb s
  | .stbux rs ra rb => Sys2Proof.Machine.execStbux rs ra rb s

end Sys2Proof.Machine
end

