-- ==== Sys2Proof/Machine/Step.lean ====
section
/-!
DEFINITION. One step of the machine (R7): the thread whose turn it is fetches, decodes and executes one instruction,
its store is settled in the coherence order (R31), and the turn passes (R77). A thread that has exited (R83; log 12) or
has a fault recorded (R66, R73; log 11) takes no step: only the turn passes.
-/

namespace Sys2Proof.Machine

/-- One step. -/
def step (s : State) : Host.Outcome State Fault Refusal :=
  if running s then
    match fetchInstr s with
    | .error r => .refused r
    | .ok i => conclude s (exec i s)
  else idle s

/-- The state in which the next step fetches and runs the word `w` of `nbits` bits (log 20). -/
def State.withFetchWord (s : State) (nbits w : Nat) : State :=
  placeAtPc (BitVec.ofNat 32 (w % 2 ^ nbits)) s

end Sys2Proof.Machine
end

