-- ==== Sys2Proof/Machine/Flags.lean ====
section
/-!
DEFINITION. Flags. The spec gives no flag computation: none of the four instructions reads or writes the condition
register, XER or any status register (R16, R59), and none touches an FPR or VR (R17). Here are only the named views
of those registers of the thread that moves, which the statements about them use.
-/

namespace Sys2Proof.Machine

/-- Field `n` of the condition register. -/
def crField (n : Nat) (s : State) : Nat := s.cur.named.cr.getD n 0

/-- `XER.CA`. -/
def xerCA (s : State) : Bool := s.cur.named.xer.ca

/-- `XER.OV`. -/
def xerOV (s : State) : Bool := s.cur.named.xer.ov

/-- `XER.SO`. -/
def xerSO (s : State) : Bool := s.cur.named.xer.so

/-- Floating-point register `n`. -/
def fpr (n : Nat) (s : State) : Nat := s.cur.named.fpr.getD n 0

/-- Vector register `n`. -/
def vr (n : Nat) (s : State) : Nat := s.cur.named.vr.getD n 0

/-- Replace the condition register, XER, the FPRs and the VRs of the thread that moves. -/
def withNamed (r : NamedRegs) (s : State) : State := { s with cur := { s.cur with named := r } }

end Sys2Proof.Machine
end

