-- ==== Sys2Proof/WellFormed.lean ====
section
/-!
DEFINITION. Which instructions are valid forms (spec/30_encoding.md R46). Field ranges need no check: the types of
Syntax.lean hold no value outside them.
-/

namespace Sys2Proof

/-- The form is valid: an update form does not name RA = 0 (R46, "There is no other invalid form"). -/
def Instr.wellFormed : Instr → Bool
  | .stb _ _ _ => true
  | .stbu _ ra _ => ra ≠ 0
  | .stbx _ _ _ => true
  | .stbux _ ra _ => ra ≠ 0

end Sys2Proof
end

