-- ==== Sys2Proof/Safety.lean ====
section
/-!
DEFINITION. What statements speak of: when a word is fetched and when a form runs, what a store changes and leaves
unchanged, how a faulting step ends, what the coherence rule R31 admits as final bytes and as loaded bytes, the
invariants of the machine, launch states, and the launch premises of a claim (R82).
-/

namespace Sys2Proof.Safety

open Sys2Proof.Machine

/-! ### Fetch and form -/

/-- The fetch reads the word `w`: `pc` is a multiple of 4, its four bytes are fetchable (R70), none was stored to since
launch (R33), and they make up `w` (R22). -/
structure Fetches (s : State) (w : InstrWord) : Prop where
  aligned : s.cur.pc.toNat % 4 = 0
  fetchable : ∀ a ∈ fetchAddrs s, s.params.fetchable a = true
  notWritten : ∀ a ∈ fetchAddrs s, written a s = false
  word : w = s.mem.readWordBE s.cur.pc.toNat

/-- The form runs: it is valid, or the policy is to execute invalid forms as the snapshot does (R46). -/
abbrev FormRuns (i : Instr) (s : State) : Prop :=
  i.wellFormed = true ∨ s.params.invalidFormPolicy = .asSnapshot

/-! ### The effect of a store -/

/-- What an instruction that stores at `ea` and updates `upd` leaves as it was: every other register of the thread, CR,
XER, FPRs, VRs, `end_pc` and the fault mark, every other thread, the parameters, the launch memory, and every byte but
the one at `ea`. -/
structure Unchanged (s t : State) (ea : Addr) (upd : Option RegNum) : Prop where
  regs : ∀ r, upd ≠ some r → readGpr r t = readGpr r s
  named : t.cur.named = s.cur.named
  endPc : t.cur.endPc = s.cur.endPc
  fault : t.cur.fault = s.cur.fault
  before : t.before = s.before
  after : t.after = s.after
  params : t.params = s.params
  launchMem : t.launchMem = s.launchMem
  bytes : ∀ a, a ≠ ea.toNat → readByte a t = readByte a s

/-- What `ResvKill(ea)` does (R14, R53): another thread's reservation stays exactly if it lies on another granule, any
reservation on another granule stays, and none is made. The storing thread's own on the granule stays or goes. -/
structure ResvKilled (s t : State) (ea : Addr) : Prop where
  others : ∀ r, r.owner ≠ tid s → (r ∈ t.resv ↔ r ∈ s.resv ∧ r.covers s.params.granule ea = false)
  elsewhere : ∀ r, r.covers s.params.granule ea = false → (r ∈ t.resv ↔ r ∈ s.resv)
  noneMade : ∀ r, r ∈ t.resv → r ∈ s.resv

/-- The whole effect of an instruction that stores `v` at `ea` and updates `upd` (R54): reservations, the byte, the
register, `pc`, and nothing else. The store event of R31 is recorded beside it. -/
structure StoreEffect (s t : State) (ea : Addr) (v : Byte) (upd : Option RegNum) : Prop
    extends Unchanged s t ea upd where
  resv : ResvKilled s t ea
  byte : readByte ea.toNat t = v
  updated : ∀ r, upd = some r → readGpr r t = ea.setWidth 64
  pc : t.cur.pc = s.cur.pc + 4#32

/-! ### A step that ends in a fault -/

/-- The step of the thread that moves ends in fault `e` (R66, R67). That thread is marked, nothing else changes, and the
machine goes on with the other threads; where every other thread is marked already, the machine's outcome is the fault
(log 11). -/
structure StepFaults (s : State) (e : Fault) : Prop where
  goesOn : (∃ th ∈ s.before ++ s.after, th.fault = none) → ∃ t, step s = .next t ∧
    threads t = s.before ++ { s.cur with fault := some e } :: s.after ∧ t.mem = s.mem ∧ t.launchMem = s.launchMem ∧
    t.resv = s.resv ∧ t.history = s.history ∧ t.coherence = s.coherence ∧ t.params = s.params
  stops : (∀ th ∈ s.before ++ s.after, th.fault ≠ none) → step s = .fault e

/-! ### Coherence (R31) -/

/-- R31 (b) admits `b` as the final byte at `a`: some thread's last store to `a`, in its program order, wrote it. -/
def CoherentFinal (s : State) (a : Nat) (b : Byte) : Prop :=
  ∃ e ∈ s.history, e.addr.toNat = a ∧ e.byte = b ∧
    ∀ e' ∈ s.history, e'.addr.toNat = a → e'.thread = e.thread → e'.index ≤ e.index

/-- R31 (b) admits that a store to `a` by thread `t` stands before exactly the `k` last stores to `a`: none of those is
the thread's own. -/
def PlaceAdmitted (s : State) (t a k : Nat) : Prop :=
  k ≤ (storesTo a s).length ∧ ∀ e ∈ (storesTo a s).take k, e.thread ≠ t

/-- The byte at place `p` of the coherence order of `a`: what the `p`-th store before the last one wrote, and past the
first store the launch value. -/
def byteAt (a p : Nat) (s : State) : Byte :=
  match (storesTo a s)[p]? with
  | some e => e.byte
  | none => s.launchMem.read a

/-- R31 (c): loads of byte `a` by thread `t`, in its program order, may return `bs`. Each returns the value of some store
to the byte or the launch value; subject to (b), none returns a value older than the thread's own last store, and a
later load none older than an earlier one. No instruction of the spec loads: this is for a larger model (log 26). -/
def LoadsReturn (s : State) (t a : Nat) (bs : List Byte) : Prop :=
  ∃ ps : List Nat, bs = ps.map (byteAt a · s) ∧ ps.Pairwise (fun earlier later => later ≤ earlier) ∧
    ∀ p ∈ ps, PlaceAdmitted s t a p

/-! ### Invariants -/

/-- Memory, and the launch memory, are in canonical form. -/
def MemCanonical (s : State) : Prop := s.mem.wf = true ∧ s.launchMem.wf = true

/-- Every thread's `pc` is a multiple of 4 (R11, R24). -/
def PcAligned (s : State) : Prop := ∀ t ∈ threads s, t.pc.toNat % 4 = 0

/-- Every byte holds what the coherence order leaves: its last store, or the launch value where there is none (R20,
R31). -/
def MemoryIsCoherent (s : State) : Prop := ∀ a, readByte a s = coherentByte a s.coherence s.launchMem

/-- The index of every event is the number of earlier events of its thread: program order (R31; the form is log 10). -/
def indexed : List StoreEvent → Bool
  | [] => true
  | e :: h => decide (e.index = storeCount e.thread h) && indexed h

/-- The history is in program order, and the coherence order is one that R31 (b) admits: it holds the same stores, and a
thread's own stores to a byte stand in it in program order. -/
structure HistoryCoherent (s : State) : Prop where
  indexed : indexed s.history = true
  sameStores : s.coherence.Perm s.history
  inProgramOrder : s.coherence.Pairwise fun later earlier =>
    later.thread = earlier.thread → later.addr = earlier.addr → earlier.index < later.index

/-- Every store of the history went to an admitted byte (R20). -/
def HistoryAdmitted (s : State) : Prop := ∀ e ∈ s.history, s.params.admits e.addr.toNat = true

/-- The reservation table is a set of reservations of the machine's threads on whole granules (R14). -/
def ResvWellFormed (s : State) : Prop :=
  s.resv.Nodup ∧ ∀ r ∈ s.resv, r.owner < (threads s).length ∧ r.base.toNat % s.params.granule = 0

/-- Everything the machine keeps from step to step. -/
structure Invariants (s : State) : Prop where
  memCanonical : MemCanonical s
  pcAligned : PcAligned s
  memoryIsCoherent : MemoryIsCoherent s
  historyCoherent : HistoryCoherent s
  historyAdmitted : HistoryAdmitted s
  resvWellFormed : ResvWellFormed s

/-! ### Launch -/

/-- A state a run may start from (R19), with the two premises of R82 that are about the state alone: (1) every `pc` is a
multiple of 4, `end_pc` too (R83), and (5) no thread has a fault recorded. Nothing is stored yet, memory is the launch
memory, and memory and reservation table are in their form. Registers, memory contents, reservations and parameters are
free. The premises of R82 on the program are `LaunchPremises`. -/
structure Launch (s : State) : Prop where
  pcAligned : PcAligned s
  endAligned : ∀ t ∈ threads s, ∀ a, t.endPc = some a → a.toNat % 4 = 0
  noFault : ∀ t ∈ threads s, t.fault = none
  nothingStored : s.history = [] ∧ s.coherence = []
  launchMem : s.launchMem = s.mem
  memCanonical : MemCanonical s
  resvWellFormed : ResvWellFormed s

/-- Byte address `a` lies in the program text of thread `th`: the straight-line text from its `pc` up to `end_pc` (R83),
or, where no end lies ahead, up to the top of the space (log 27). -/
def InText (th : ThreadState) (a : Nat) : Prop :=
  th.pc.toNat ≤ a ∧ a < 2 ^ 32 ∧ ∀ e, th.endPc = some e → th.pc.toNat ≤ e.toNat → a < e.toNat

/-- A run from `s` comes to instruction `i` of thread `k` in state `u`: that thread moves, and its fetch reads `i`. -/
def Reaches (s : State) (k : Nat) (i : Instr) (u : State) : Prop :=
  (∃ n, Host.Core.run Sys2Proof.core n s = .next u) ∧ tid u = k ∧ running u = true ∧ fetchInstr u = .ok i

/-- The premises (1) to (5) of R82 on the launch state of a claim; (1) and (5) are those of `Launch`. -/
structure LaunchPremises (s : State) : Prop extends Launch s where
  /-- (2) The program text lies in `Code`. -/
  textInCode : ∀ th ∈ threads s, ∀ a, InText th a → s.params.code.any (·.contains a) = true
  /-- (2) `Code` is disjoint from every address the program stores to. -/
  storesOutsideCode : ∀ k i u, Reaches s k i u → s.params.code.any (·.contains (eaOf i u).toNat) = false
  /-- (3) Every EA the program will compute lies in `Admit`. -/
  storesAdmitted : ∀ k i u, Reaches s k i u → s.params.admits (eaOf i u).toNat = true
  /-- (4) No update-form instruction in the text has RA = 0. -/
  validForms : ∀ th ∈ threads s, ∀ a i, a % 4 = 0 → InText th a →
    decodeWord s.params.rc1Policy (s.mem.readWordBE a) = .ok i → i.wellFormed = true
  /-- (4) No X-form instruction in the text has bit `w[0]` = 1. -/
  rcBitsClear : ∀ th ∈ threads s, ∀ a, a % 4 = 0 → InText th a →
    decodeWord .refuse (s.mem.readWordBE a) ≠ .error .reservedRcBit

/-- R82 (6), of a claim about thread `k` alone: the other threads never write `Admit`. That they never write this
thread's registers holds of every run (R13). -/
def OthersNeverStore (s : State) (k : Nat) : Prop :=
  ∀ n t, Host.Core.run Sys2Proof.core n s = .next t → ∀ e ∈ t.history, e.thread = k

end Sys2Proof.Safety
end

