-- ==== Sys2Proof/Certificates/Slice0/Obligations.lean ====
section
/-!
DEFINITION. The statements about the model, from the numbered rules of spec/. Each docstring says which rule it
formalises, or which sections it rests on where it is derived. All are over every state, with the parameters of the
run (Admit, Code, granule, threads, policies) and the launch values free, unless a premise says otherwise.
-/

open Sys2Proof Sys2Proof.Machine Sys2Proof.Safety

/-! ### Encoding -/

/-- The decoding vectors of spec/95_test_vectors.md section 2 for the words the spec writes out. -/
def Obligations.SpecWordsDecode : Prop :=
  decodeWord .refuse 0x98000000#32 = .ok (.stb 0 0 0x0000#16) ∧
  decodeWord .refuse 0x98A1FFFF#32 = .ok (.stb 5 1 0xFFFF#16) ∧
  decodeWord .refuse 0x9C640001#32 = .ok (.stbu 3 4 0x0001#16) ∧
  decodeWord .refuse 0x9FFF7FFF#32 = .ok (.stbu 31 31 0x7FFF#16) ∧
  decodeWord .refuse 0x7C6429AE#32 = .ok (.stbx 3 4 5) ∧
  decodeWord .refuse 0x7FFEE9EE#32 = .ok (.stbux 31 30 29) ∧
  decodeWord .refuse 0x7C6429AF#32 = .error .reservedRcBit ∧
  decodeWord .refuse 0x7C0005AE#32 = .error (.notInSpec 0x7C0005AE#32)

/-- Decoding an encoded instruction gives it back, under either policy for the Rc bit (R38, R43). -/
def Obligations.EncodeThenDecode : Prop :=
  ∀ (p : Rc1Policy) (i : Instr), decodeWord p (encode i) = .ok i

/-- Under the default policy each word has one meaning: a word that decodes is the encoding of what it decodes to
(R38, R42). -/
def Obligations.DecodeThenEncode : Prop :=
  ∀ (w : InstrWord) (i : Instr), decodeWord .refuse w = .ok i → encode i = w

/-- R42: `w` is the instruction iff `(w & mask) = match`; the opcode words with all operand fields zero; and with
`RC1_POLICY` = `ignore_bit` the X-form masks are 0xFC0007FE. -/
def Obligations.MatchAndMaskSelect : Prop :=
  (∀ w : InstrWord,
    ((∃ rs ra d, decodeWord .refuse w = .ok (.stb rs ra d)) ↔ w &&& 0xFC000000#32 = 0x98000000#32) ∧
    ((∃ rs ra d, decodeWord .refuse w = .ok (.stbu rs ra d)) ↔ w &&& 0xFC000000#32 = 0x9C000000#32) ∧
    ((∃ rs ra rb, decodeWord .refuse w = .ok (.stbx rs ra rb)) ↔ w &&& 0xFC0007FF#32 = 0x7C0001AE#32) ∧
    ((∃ rs ra rb, decodeWord .refuse w = .ok (.stbux rs ra rb)) ↔ w &&& 0xFC0007FF#32 = 0x7C0001EE#32) ∧
    ((∃ rs ra rb, decodeWord .ignoreBit w = .ok (.stbx rs ra rb)) ↔ w &&& 0xFC0007FE#32 = 0x7C0001AE#32) ∧
    ((∃ rs ra rb, decodeWord .ignoreBit w = .ok (.stbux rs ra rb)) ↔ w &&& 0xFC0007FE#32 = 0x7C0001EE#32)) ∧
  encode (.stb 0 0 0#16) = 0x98000000#32 ∧ encode (.stbu 0 0 0#16) = 0x9C000000#32 ∧
  encode (.stbx 0 0 0) = 0x7C0001AE#32 ∧ encode (.stbux 0 0 0) = 0x7C0001EE#32

/-- R38: the fields as arithmetic on the word, and the word as a sum of fields, the X form with Rc = 0 and Rc = 1. -/
def Obligations.FieldsAreArithmetic : Prop :=
  (∀ w : InstrWord,
    (opcdField w).toNat = w.toNat / 2 ^ 26 % 2 ^ 6 ∧
    (rsField w).val = w.toNat / 2 ^ 21 % 2 ^ 5 ∧
    (raField w).val = w.toNat / 2 ^ 16 % 2 ^ 5 ∧
    (rbField w).val = w.toNat / 2 ^ 11 % 2 ^ 5 ∧
    (xoField w).toNat = w.toNat / 2 % 2 ^ 10 ∧
    (rcField w).toNat = w.toNat % 2 ∧
    (dField w).toNat = w.toNat % 2 ^ 16) ∧
  (∀ (o : BitVec 6) (rs ra : RegNum) (d : Disp),
    (encodeD o rs ra d).toNat = o.toNat * 2 ^ 26 + rs.val * 2 ^ 21 + ra.val * 2 ^ 16 + d.toNat) ∧
  (∀ (xo : BitVec 10) (rs ra rb : RegNum),
    (encodeX xo rs ra rb).toNat =
      31 * 2 ^ 26 + rs.val * 2 ^ 21 + ra.val * 2 ^ 16 + rb.val * 2 ^ 11 + xo.toNat * 2 ∧
    (encodeX xo rs ra rb ||| 1#32).toNat =
      31 * 2 ^ 26 + rs.val * 2 ^ 21 + ra.val * 2 ^ 16 + rb.val * 2 ^ 11 + xo.toNat * 2 + 1)

/-- R44: a word with the OPCD and XO of `stbx` or `stbux` and bit `w[0]` set is refused, reason `ReservedRcBit`, under
the default policy, and a step that fetches it stops so; under `ignore_bit` it decodes as if the bit were 0. -/
def Obligations.SetRcBitIsReserved : Prop :=
  (∀ w : InstrWord, decodeWord .refuse w = .error .reservedRcBit ↔
    (w &&& 0xFC0007FF#32 = 0x7C0001AF#32 ∨ w &&& 0xFC0007FF#32 = 0x7C0001EF#32)) ∧
  (∀ w : InstrWord, (w &&& 0xFC0007FF#32 = 0x7C0001AF#32 ∨ w &&& 0xFC0007FF#32 = 0x7C0001EF#32) →
    ∃ i, decodeWord .ignoreBit w = .ok i ∧ decodeWord .refuse (w &&& 0xFFFFFFFE#32) = .ok i) ∧
  (∀ (s : State) (w : InstrWord), running s = true → Fetches s w → s.params.rc1Policy = .refuse →
    (w &&& 0xFC0007FF#32 = 0x7C0001AF#32 ∨ w &&& 0xFC0007FF#32 = 0x7C0001EF#32) →
    step s = .refused .reservedRcBit)

/-- R45: a word that matches no row of the table, the Rc bit of the X-form rows left aside, is refused, reason
`NotInSpec(w)`, under either policy, and a step that fetches it stops so; the neighbours the rule lists are among
those words. -/
def Obligations.OtherWordsAreNotInSpec : Prop :=
  (∀ (p : Rc1Policy) (w : InstrWord), decodeWord p w = .error (.notInSpec w) ↔
    (w &&& 0xFC000000#32 ≠ 0x98000000#32 ∧ w &&& 0xFC000000#32 ≠ 0x9C000000#32 ∧
      w &&& 0xFC0007FE#32 ≠ 0x7C0001AE#32 ∧ w &&& 0xFC0007FE#32 ≠ 0x7C0001EE#32)) ∧
  (∀ (s : State) (w : InstrWord), running s = true → Fetches s w →
    w &&& 0xFC000000#32 ≠ 0x98000000#32 → w &&& 0xFC000000#32 ≠ 0x9C000000#32 →
    w &&& 0xFC0007FE#32 ≠ 0x7C0001AE#32 → w &&& 0xFC0007FE#32 ≠ 0x7C0001EE#32 →
    step s = .refused (.notInSpec w)) ∧
  (∀ w ∈ [0x94000000#32, 0xA0000000#32, 0x7C0001AC#32, 0x7C0001B0#32, 0x7C0001EC#32, 0x7C0001F0#32],
    decodeWord .refuse w = .error (.notInSpec w))

/-! ### Fetch and step -/

/-- R22: fetch assembles the four bytes at `pc` to `pc + 3` big-endian, the byte at `pc` highest, and reads them only
if each lies in `Code` or `Admit`; otherwise the step is refused, reason `FetchNotAdmitted`. -/
def Obligations.FetchIsBigEndian : Prop :=
  (∀ s : State, s.cur.pc.toNat % 4 = 0 → (∀ a ∈ fetchAddrs s, s.params.fetchable a = true) →
    (∀ a ∈ fetchAddrs s, written a s = false) →
    ∃ w, fetchWord s = .ok w ∧
      w.extractLsb' 24 8 = readByte s.cur.pc.toNat s ∧ w.extractLsb' 16 8 = readByte (s.cur.pc.toNat + 1) s ∧
      w.extractLsb' 8 8 = readByte (s.cur.pc.toNat + 2) s ∧ w.extractLsb' 0 8 = readByte (s.cur.pc.toNat + 3) s) ∧
  (∀ s : State, running s = true → s.cur.pc.toNat % 4 = 0 →
    (∃ a ∈ fetchAddrs s, s.params.fetchable a = false) → step s = .refused .fetchNotAdmitted) ∧
  wordOfBytes 0x98#8 0x64#8 0x00#8 0x00#8 = encode (.stb 3 4 0#16)

/-- A step runs the decoded instruction: where the thread runs and its fetch reads a word that decodes to `i`, the step
is `exec i` of that state, and what the model adds around it: a next state has its store settled in the coherence order
by the step that makes it (the model's choice of how it gives R31 (b), log 9) and the turn passed to the thread a free
value names (its choice of how it gives R77, log 8); a fault marks the thread (R66), and the machine ends only when no
other thread is left (its choice, log 11); a refusal ends the run. -/
def Obligations.StepRunsDecodedInstruction : Prop :=
  ∀ (s : State) (w : InstrWord) (i : Instr), running s = true → Fetches s w →
    decodeWord s.params.rc1Policy w = .ok i →
    (∀ t, exec i s = .next t → step s = .next (passTurn (settle t))) ∧
    (∀ e, exec i s = .fault e → StepFaults s e) ∧
    (∀ r, exec i s = .refused r → step s = .refused r)

/-- From R69: within one step the checks are made in the order PcMisaligned, FetchNotAdmitted, FetchOfWrittenCode,
NotInSpec, ReservedRcBit, InvalidFormRA0, StoreNotAdmitted, PcWrap, first hit wins, and a step that passes them all goes on.
Each refusal ends the run. How the step ends that hits StoreNotAdmitted (`StepFaults`: the thread is marked, R66, and the
machine goes on with the others, answering the fault only when all are marked) is the model's choice (log 11): R69 says
that each of these outcomes ends the run as not final. Also, `stbux` with both Rc = 1 and RA = 0 is `ReservedRcBit`. -/
def Obligations.StepChecksInOrder : Prop :=
  (∀ s : State, running s = true →
    (s.cur.pc.toNat % 4 ≠ 0 → step s = .refused .pcMisaligned) ∧
    (s.cur.pc.toNat % 4 = 0 → (∃ a ∈ fetchAddrs s, s.params.fetchable a = false) →
      step s = .refused .fetchNotAdmitted) ∧
    (s.cur.pc.toNat % 4 = 0 → (∀ a ∈ fetchAddrs s, s.params.fetchable a = true) →
      (∃ a ∈ fetchAddrs s, written a s = true) → step s = .refused .fetchOfWrittenCode) ∧
    (∀ w, Fetches s w →
      (∀ v, decodeWord s.params.rc1Policy w = .error (.notInSpec v) → v = w ∧ step s = .refused (.notInSpec w)) ∧
      (decodeWord s.params.rc1Policy w = .error .reservedRcBit → step s = .refused .reservedRcBit) ∧
      (∀ i, decodeWord s.params.rc1Policy w = .ok i →
        (¬FormRuns i s → step s = .refused .invalidFormRA0) ∧
        (FormRuns i s → s.params.admits (eaOf i s).toNat = false →
          StepFaults s (.storeNotAdmitted (eaOf i s))) ∧
        (FormRuns i s → s.params.admits (eaOf i s).toNat = true → 2 ^ 32 ≤ s.cur.pc.toNat + 4 →
          step s = .refused .pcWrap) ∧
        (FormRuns i s → s.params.admits (eaOf i s).toNat = true → s.cur.pc.toNat + 4 < 2 ^ 32 →
          ∃ t, step s = .next t)))) ∧
  (∀ rs rb : RegNum, decodeWord .refuse (encode (.stbux rs 0 rb) ||| 1#32) = .error .reservedRcBit)

/-- R33: the set `written` starts empty at launch and grows by exactly the byte address stored to, whichever thread
stores; a fetch that would read a byte in it is refused, reason `FetchOfWrittenCode`. -/
def Obligations.FetchOfWrittenCodeIsRefused : Prop :=
  (∀ s : State, Launch s → ∀ a, written a s = false) ∧
  (∀ (i : Instr) (s t : State), exec i s = .next t →
    ∀ a, written a t = true ↔ (a = (eaOf i s).toNat ∨ written a s = true)) ∧
  (∀ s : State, running s = true → s.cur.pc.toNat % 4 = 0 → (∀ a ∈ fetchAddrs s, s.params.fetchable a = true) →
    (∃ a ∈ fetchAddrs s, written a s = true) → step s = .refused .fetchOfWrittenCode)

/-- R70, the clause on claims that keep `Code` and `Admit` apart: while the program text at `pc` lies in `Code`, no byte
of `Code` is admitted and every store so far was admitted (an invariant), no step is refused with
`FetchOfWrittenCode`. -/
def Obligations.CodeOutsideAdmitIsNeverWritten : Prop :=
  ∀ s : State, HistoryAdmitted s → (∀ a, s.params.code.any (·.contains a) = true → s.params.admits a = false) →
    (∀ a ∈ fetchAddrs s, s.params.code.any (·.contains a) = true) → step s ≠ .refused .fetchOfWrittenCode

/-- A thread that has exited (`pc = end_pc` and no fault recorded, R83) takes no step: the machine's step only passes
the turn, and with one thread the state stays as it is. That this is a next state is the model's choice (log 12). -/
def Obligations.ExitedThreadTakesNoStep : Prop :=
  ∀ s : State, s.cur.endPc = some s.cur.pc → s.cur.fault = none →
    (∃ t, step s = .next t ∧ threads t = threads s ∧ t.mem = s.mem ∧ t.launchMem = s.launchMem ∧ t.resv = s.resv ∧
      t.history = s.history ∧ t.coherence = s.coherence ∧ t.params = s.params) ∧
    (s.before = [] → s.after = [] → step s = .next s)

/-- R66, R73: a thread with a fault recorded takes no step. While some thread has none the machine's step only passes the
turn; when all have one, the machine's outcome is that fault (the model's choice, log 11). -/
def Obligations.FaultedThreadTakesNoStep : Prop :=
  ∀ (s : State) (e : Fault), s.cur.fault = some e →
    ((∃ th ∈ threads s, th.fault = none) → ∃ t, step s = .next t ∧ threads t = threads s ∧ t.mem = s.mem ∧
      t.launchMem = s.launchMem ∧ t.resv = s.resv ∧ t.history = s.history ∧ t.coherence = s.coherence ∧
      t.params = s.params) ∧
    ((∀ th ∈ threads s, th.fault ≠ none) → step s = .fault e)

/-- R66: a fault marks its thread for the rest of the run, and no later step clears the mark (R7): over any number of
steps of any threads a thread with a fault recorded stays exactly as it is (R73). The machine itself ends in a fault
only when no other thread is without one (log 11), and only a thread that runs can be refused. -/
def Obligations.FaultMarksItsThreadForGood : Prop :=
  (∀ (n : Nat) (s t : State), Host.Core.run Sys2Proof.core n s = .next t →
    ∀ (k : Nat) (th : ThreadState), (threads s)[k]? = some th → th.fault ≠ none → (threads t)[k]? = some th) ∧
  (∀ (s : State) (e : Fault), step s = .fault e → ∀ th ∈ s.before ++ s.after, th.fault ≠ none) ∧
  (∀ (s : State) (r : Refusal), step s = .refused r → running s = true)

/-! ### Operands -/

/-- R10: no register is hardwired. Every register, `r0` among them, holds what was last written to it, and a write
changes no other. -/
def Obligations.NoRegisterIsHardwired : Prop :=
  ∀ (r : RegNum) (v : Word) (s : State),
    readGpr r (writeGpr r v s) = v ∧ ∀ r', r' ≠ r → readGpr r' (writeGpr r v s) = readGpr r' s

/-- R39: the displacement is the 16 bits read as two's complement, sign-extended to 64 bits, unscaled; the four values
the rule lists. -/
def Obligations.DisplacementIsSignExtended : Prop :=
  (∀ d : Disp, (dispValue d).toInt = d.toInt ∧ -32768 ≤ d.toInt ∧ d.toInt ≤ 32767) ∧
  dispValue 0x0001#16 = 0x0000000000000001#64 ∧ dispValue 0x7FFF#16 = 0x0000000000007FFF#64 ∧
  dispValue 0x8000#16 = 0xFFFFFFFFFFFF8000#64 ∧ dispValue 0xFFFF#16 = 0xFFFFFFFFFFFFFFFF#64

/-- R41: in `stb` and `stbx` the RA field is an RA0 operand: field 0 is the literal 0 whatever `r0` holds, any other
number the register. -/
def Obligations.RaZeroIsLiteralZero : Prop :=
  (∀ (rs : RegNum) (d : Disp) (s : State), eaOf (.stb rs 0 d) s = (d.signExtend 64).setWidth 32) ∧
  (∀ (rs rb : RegNum) (s : State), eaOf (.stbx rs 0 rb) s = (readGpr rb s).setWidth 32) ∧
  (∀ (rs ra : RegNum) (d : Disp) (s : State), ra ≠ 0 →
    eaOf (.stb rs ra d) s = (readGpr ra s + d.signExtend 64).setWidth 32) ∧
  (∀ (rs ra rb : RegNum) (s : State), ra ≠ 0 →
    eaOf (.stbx rs ra rb) s = (readGpr ra s + readGpr rb s).setWidth 32)

/-- R50: the effective address is the 64-bit wrapping sum cut to its low 32 bits, so the high halves of the addends
never matter; for each instruction the addends are those of its row. -/
def Obligations.EffectiveAddressIsTruncatedSum : Prop :=
  (∀ a b : Word, (effAddr a b).toNat = (a.toNat + b.toNat) % 2 ^ 64 % 2 ^ 32 ∧
    effAddr a b = a.setWidth 32 + b.setWidth 32) ∧
  (∀ (rs ra : RegNum) (d : Disp) (s : State),
    eaOf (.stb rs ra d) s = effAddr (if ra = 0 then 0#64 else readGpr ra s) (d.signExtend 64) ∧
    eaOf (.stbu rs ra d) s = effAddr (readGpr ra s) (d.signExtend 64)) ∧
  (∀ (rs ra rb : RegNum) (s : State),
    eaOf (.stbx rs ra rb) s = effAddr (if ra = 0 then 0#64 else readGpr ra s) (readGpr rb s) ∧
    eaOf (.stbux rs ra rb) s = effAddr (readGpr ra s) (readGpr rb s))

/-- The table of R61: base, second addend, address, and RA after an update form. -/
def Obligations.WrapAroundTable : Prop :=
  ∀ row ∈ [
    (0x0000000000001000#64, 0xFFFFFFFFFFFFFFFF#64, 0x00000FFF#32, 0x0000000000000FFF#64),
    (0x0000000000000000#64, 0xFFFFFFFFFFFFFFFF#64, 0xFFFFFFFF#32, 0x00000000FFFFFFFF#64),
    (0x00000000FFFFFFFF#64, 0x0000000000000001#64, 0x00000000#32, 0x0000000000000000#64),
    (0xFFFFFFFFFFFFFFFF#64, 0x0000000000000001#64, 0x00000000#32, 0x0000000000000000#64),
    (0x0000000100000010#64, 0x0000000000000000#64, 0x00000010#32, 0x0000000000000010#64),
    (0xDEADBEEF00002000#64, 0xCAFEF00D00000004#64, 0x00002004#32, 0x0000000000002004#64),
    (0x0000000080000000#64, 0x0000000080000000#64, 0x00000000#32, 0x0000000000000000#64)],
    effAddr row.1 row.2.1 = row.2.2.1 ∧ updateValue row.2.2.1 = row.2.2.2

/-! ### The four instructions -/

/-- R55, `stb`: the encoding; where `Admit(EA)` holds and `pc + 4` stays in the space the instruction completes with
exactly its effect, for every RS, RA and `dfld`; where `Admit(EA)` is false it faults. -/
def Obligations.StbMeaning : Prop :=
  ∀ (rs ra : RegNum) (d : Disp) (s : State),
    let A : Word := if ra = 0 then 0#64 else readGpr ra s
    let EA : Addr := (A + d.signExtend 64).setWidth 32
    (encode (.stb rs ra d)).toNat = 0x98000000 + rs.val * 2 ^ 21 + ra.val * 2 ^ 16 + d.toNat ∧
    (s.params.admits EA.toNat = true → s.cur.pc.toNat + 4 < 2 ^ 32 →
      ∃ t, exec (.stb rs ra d) s = .next t ∧ StoreEffect s t EA ((readGpr rs s).setWidth 8) none) ∧
    (s.params.admits EA.toNat = false → exec (.stb rs ra d) s = .fault (.storeNotAdmitted EA))

/-- R56, `stbu`: as R55 with the register RA as base, RA ≠ 0, and RA updated with the zero-extended EA; RA = 0 is
refused under the default policy. -/
def Obligations.StbuMeaning : Prop :=
  ∀ (rs ra : RegNum) (d : Disp) (s : State),
    let EA : Addr := (readGpr ra s + d.signExtend 64).setWidth 32
    (encode (.stbu rs ra d)).toNat = 0x9C000000 + rs.val * 2 ^ 21 + ra.val * 2 ^ 16 + d.toNat ∧
    (ra = 0 → s.params.invalidFormPolicy = .refuse → exec (.stbu rs ra d) s = .refused .invalidFormRA0) ∧
    (ra ≠ 0 → s.params.admits EA.toNat = true → s.cur.pc.toNat + 4 < 2 ^ 32 →
      ∃ t, exec (.stbu rs ra d) s = .next t ∧ StoreEffect s t EA ((readGpr rs s).setWidth 8) (some ra)) ∧
    (ra ≠ 0 → s.params.admits EA.toNat = false → exec (.stbu rs ra d) s = .fault (.storeNotAdmitted EA))

/-- R57, `stbx`: as R55 with the index register RB as second addend; a word with the Rc bit set does not decode under
the default policy. -/
def Obligations.StbxMeaning : Prop :=
  ∀ (rs ra rb : RegNum) (s : State),
    let A : Word := if ra = 0 then 0#64 else readGpr ra s
    let EA : Addr := (A + readGpr rb s).setWidth 32
    (encode (.stbx rs ra rb)).toNat = 0x7C0001AE + rs.val * 2 ^ 21 + ra.val * 2 ^ 16 + rb.val * 2 ^ 11 ∧
    decodeWord .refuse (encode (.stbx rs ra rb) ||| 1#32) = .error .reservedRcBit ∧
    (s.params.admits EA.toNat = true → s.cur.pc.toNat + 4 < 2 ^ 32 →
      ∃ t, exec (.stbx rs ra rb) s = .next t ∧ StoreEffect s t EA ((readGpr rs s).setWidth 8) none) ∧
    (s.params.admits EA.toNat = false → exec (.stbx rs ra rb) s = .fault (.storeNotAdmitted EA))

/-- R58, `stbux`: as R57 with the register RA as base, RA ≠ 0, and RA updated with the zero-extended EA; RA = 0 is
refused under the default policy. -/
def Obligations.StbuxMeaning : Prop :=
  ∀ (rs ra rb : RegNum) (s : State),
    let EA : Addr := (readGpr ra s + readGpr rb s).setWidth 32
    (encode (.stbux rs ra rb)).toNat = 0x7C0001EE + rs.val * 2 ^ 21 + ra.val * 2 ^ 16 + rb.val * 2 ^ 11 ∧
    decodeWord .refuse (encode (.stbux rs ra rb) ||| 1#32) = .error .reservedRcBit ∧
    (ra = 0 → s.params.invalidFormPolicy = .refuse → exec (.stbux rs ra rb) s = .refused .invalidFormRA0) ∧
    (ra ≠ 0 → s.params.admits EA.toNat = true → s.cur.pc.toNat + 4 < 2 ^ 32 →
      ∃ t, exec (.stbux rs ra rb) s = .next t ∧ StoreEffect s t EA ((readGpr rs s).setWidth 8) (some ra)) ∧
    (ra ≠ 0 → s.params.admits EA.toNat = false → exec (.stbux rs ra rb) s = .fault (.storeNotAdmitted EA))

/-- The frame of `stb` and `stbx`: a next state has every register as before, CR, XER, FPRs, VRs, `end_pc`, the
fault mark, the other threads, the parameters and the launch memory as before, and every byte but the one at the address
the form stores to. -/
def Obligations.NonUpdateFormsFrame : Prop :=
  (∀ (rs ra : RegNum) (d : Disp) (s t : State), exec (.stb rs ra d) s = .next t →
    Unchanged s t (eaStb ra d s) none) ∧
  (∀ (rs ra rb : RegNum) (s t : State), exec (.stbx rs ra rb) s = .next t →
    Unchanged s t (eaStbx ra rb s) none)

/-- The frame of `stbu` and `stbux`: as for the other two, but for the register RA. -/
def Obligations.UpdateFormsFrame : Prop :=
  (∀ (rs ra : RegNum) (d : Disp) (s t : State), exec (.stbu rs ra d) s = .next t →
    Unchanged s t (eaStbu ra d s) (some ra)) ∧
  (∀ (rs ra rb : RegNum) (s t : State), exec (.stbux rs ra rb) s = .next t →
    Unchanged s t (eaStbux ra rb s) (some ra))

/-- R59: no instruction reads or writes the condition register, XER or any other status register, and none an FPR or
VR (R17). Replacing them before the instruction is replacing them after it. -/
def Obligations.FlagsAreNeitherReadNorWritten : Prop :=
  ∀ (i : Instr) (n : NamedRegs) (s : State), exec i (withNamed n s) = mapNext (withNamed n) (exec i s)

/-- R13: registers and `pc` are per thread. An instruction neither reads nor writes another thread's: replacing the
other threads before it is replacing them after it. -/
def Obligations.OtherThreadsAreNeitherReadNorWritten : Prop :=
  ∀ (i : Instr) (s : State) (b a : List ThreadState), b.length = s.before.length →
    exec i { s with before := b, after := a } = mapNext (fun t => { t with before := b, after := a }) (exec i s)

/-- R51: the byte written is the low 8 bits of RS, the upper 56 bits ignored, RS read before RA is updated. -/
def Obligations.StoredByteIsLowByteOfSource : Prop :=
  ∀ (i : Instr) (s t : State), exec i s = .next t →
    readByte (eaOf i s).toNat t = (readGpr (sourceOf i) s).setWidth 8 ∧
    (readByte (eaOf i s).toNat t).toNat = (readGpr (sourceOf i) s).toNat % 2 ^ 8

/-- R52: after an update form RA holds the effective address zero-extended to 64 bits; the high 32 bits are 0. -/
def Obligations.UpdateWritesZeroExtendedAddress : Prop :=
  ∀ (i : Instr) (ra : RegNum) (s t : State), updatedReg i = some ra → exec i s = .next t →
    readGpr ra t = (eaOf i s).setWidth 64 ∧ (readGpr ra t).toNat = (eaOf i s).toNat ∧
    (readGpr ra t).extractLsb' 32 32 = 0#32

/-- R53: before the byte is written the reservations of other threads on the granule of EA are removed, in all four
instructions alike; the storing thread's own there stays or goes (R14), and no other changes. No other
thread then holds a reservation on the granule of EA (R32), and `ResvKill` itself changes no register, no `pc` and no
memory. -/
def Obligations.ReservationsOnTheGranuleAreKilled : Prop :=
  ∀ (i : Instr) (s t : State), exec i s = .next t →
    ResvKilled s t (eaOf i s) ∧
    (∀ r ∈ t.resv, r.covers s.params.granule (eaOf i s) = true → r.owner = tid s) ∧
    (resvKill (eaOf i s) s).cur = s.cur ∧ (resvKill (eaOf i s) s).mem = s.mem

/-- R31: the model records each store as an event (thread, program-order index, address, byte), in the history and, to
be settled, at the end of its byte's coherence order. The form of the record, lists with the newest event first and the
index as a count, is the model's choice (log 10). -/
def Obligations.EveryStoreIsRecorded : Prop :=
  ∀ (i : Instr) (s t : State), exec i s = .next t →
    let e : StoreEvent := ⟨tid s, storeCount (tid s) s.history, eaOf i s, (readGpr (sourceOf i) s).setWidth 8⟩
    t.history = e :: s.history ∧ t.coherence = e :: s.coherence

/-- R60: every coincidence of registers is valid. With RA = RS an update form stores the low byte of the register's
old value and leaves EA in it; with RA = RB, with RS = RB and with all three equal, all reads use old values; the
non-update forms write no register, whatever coincides; the two words the rule gives. -/
def Obligations.CoincidingRegistersUseOldValues : Prop :=
  (∀ (r : RegNum) (d : Disp) (s t : State), exec (.stbu r r d) s = .next t →
    readByte ((readGpr r s + d.signExtend 64).setWidth 32 : Addr).toNat t = (readGpr r s).setWidth 8 ∧
    readGpr r t = ((readGpr r s + d.signExtend 64).setWidth 32 : Addr).setWidth 64) ∧
  (∀ (r rb : RegNum) (s t : State), exec (.stbux r r rb) s = .next t →
    readByte ((readGpr r s + readGpr rb s).setWidth 32 : Addr).toNat t = (readGpr r s).setWidth 8 ∧
    readGpr r t = ((readGpr r s + readGpr rb s).setWidth 32 : Addr).setWidth 64 ∧
    (rb ≠ r → readGpr rb t = readGpr rb s)) ∧
  (∀ (rs r : RegNum) (s t : State), exec (.stbux rs r r) s = .next t →
    readByte ((readGpr r s + readGpr r s).setWidth 32 : Addr).toNat t = (readGpr rs s).setWidth 8 ∧
    ((readGpr r s + readGpr r s).setWidth 32 : Addr).toNat = 2 * (readGpr r s).toNat % 2 ^ 32 ∧
    readGpr r t = ((readGpr r s + readGpr r s).setWidth 32 : Addr).setWidth 64 ∧
    (rs ≠ r → readGpr rs t = readGpr rs s)) ∧
  (∀ (r ra : RegNum) (s t : State), exec (.stbux r ra r) s = .next t →
    readByte ((readGpr ra s + readGpr r s).setWidth 32 : Addr).toNat t = (readGpr r s).setWidth 8 ∧
    readGpr ra t = ((readGpr ra s + readGpr r s).setWidth 32 : Addr).setWidth 64 ∧
    (ra ≠ r → readGpr r t = readGpr r s)) ∧
  (∀ (rs ra rb : RegNum) (d : Disp) (s t : State), exec (.stb rs ra d) s = .next t ∨ exec (.stbx rs ra rb) s = .next t →
    ∀ r, readGpr r t = readGpr r s) ∧
  (∀ (rs ra rb : RegNum) (d : Disp) (s : State), s.cur.pc.toNat + 4 < 2 ^ 32 → (∀ a, a < 2 ^ 32 → s.params.admits a) →
    (∃ t, exec (.stb rs ra d) s = .next t) ∧ (∃ t, exec (.stbx rs ra rb) s = .next t) ∧
    (ra ≠ 0 → (∃ t, exec (.stbu rs ra d) s = .next t) ∧ (∃ t, exec (.stbux rs ra rb) s = .next t))) ∧
  decodeWord .refuse 0x9D08FFFF#32 = .ok (.stbu 8 8 0xFFFF#16) ∧
  decodeWord .refuse 0x7C8421EE#32 = .ok (.stbux 4 4 4)

/-- R46: an update form with RA = 0 is refused, reason `InvalidFormRA0`, for every value of the other fields, under
the default policy; under `as_snapshot` it executes with `r0` as an ordinary base; and there is no other invalid
form. -/
def Obligations.UpdateFormsWithRaZero : Prop :=
  (∀ (rs rb : RegNum) (d : Disp) (s : State), s.params.invalidFormPolicy = .refuse →
    exec (.stbu rs 0 d) s = .refused .invalidFormRA0 ∧ exec (.stbux rs 0 rb) s = .refused .invalidFormRA0) ∧
  (∀ (rs : RegNum) (d : Disp) (s : State), s.params.invalidFormPolicy = .asSnapshot →
    s.params.admits ((readGpr 0 s + d.signExtend 64).setWidth 32 : Addr).toNat = true →
    s.cur.pc.toNat + 4 < 2 ^ 32 → ∃ t, exec (.stbu rs 0 d) s = .next t ∧
      StoreEffect s t ((readGpr 0 s + d.signExtend 64).setWidth 32) ((readGpr rs s).setWidth 8) (some 0)) ∧
  (∀ (rs rb : RegNum) (s : State), s.params.invalidFormPolicy = .asSnapshot →
    s.params.admits ((readGpr 0 s + readGpr rb s).setWidth 32 : Addr).toNat = true →
    s.cur.pc.toNat + 4 < 2 ^ 32 → ∃ t, exec (.stbux rs 0 rb) s = .next t ∧
      StoreEffect s t ((readGpr 0 s + readGpr rb s).setWidth 32) ((readGpr rs s).setWidth 8) (some 0)) ∧
  (∀ (i : Instr) (s : State), exec i s = .refused .invalidFormRA0 →
    (∃ rs d, i = .stbu rs 0 d) ∨ (∃ rs rb, i = .stbux rs 0 rb))

/-- From R67: where the form runs and `Admit(EA)` is false, the outcome is `fault StoreNotAdmitted(EA)`, which carries the
EA only and no state, at the top of the address space too; and the step of a thread that fetches the instruction ends
so: memory, reservations, RA and `pc` stay, the thread is marked with the fault, and it alone (R66). That the machine then goes on
with the other threads, and answers the fault only when all are marked, is the model's choice (log 11). -/
def Obligations.UnadmittedStoreFaults : Prop :=
  ∀ (i : Instr) (s : State), FormRuns i s → s.params.admits (eaOf i s).toNat = false →
    exec i s = .fault (.storeNotAdmitted (eaOf i s)) ∧
    ∀ w, running s = true → Fetches s w → decodeWord s.params.rc1Policy w = .ok i →
      StepFaults s (.storeNotAdmitted (eaOf i s))

/-- R23: a byte store has no alignment requirement. The only fault of an instruction is that of an address outside
`Admit`, so no value of EA, odd or even, faults for alignment's sake; and a store is one byte, so none is split. -/
def Obligations.NoStoreFaultsForAlignment : Prop :=
  (∀ (i : Instr) (s : State) (e : Fault), exec i s = .fault e →
    e = .storeNotAdmitted (eaOf i s) ∧ s.params.admits (eaOf i s).toNat = false) ∧
  (∀ (i : Instr) (s : State), FormRuns i s → s.params.admits (eaOf i s).toNat = true →
    s.cur.pc.toNat + 4 < 2 ^ 32 → ∃ t, exec i s = .next t ∧
      ∀ a, a ≠ (eaOf i s).toNat → readByte a t = readByte a s)

/-- R11, the top of the address space: an instruction that would otherwise complete is refused, reason `PcWrap`, where
`pc + 4` leaves the 32-bit space; elsewhere `pc` advances by 4 exactly. -/
def Obligations.PcNeverWraps : Prop :=
  (∀ (i : Instr) (s : State), FormRuns i s → s.params.admits (eaOf i s).toNat = true →
    2 ^ 32 ≤ s.cur.pc.toNat + 4 → exec i s = .refused .pcWrap) ∧
  (∀ (i : Instr) (s t : State), exec i s = .next t → t.cur.pc.toNat = s.cur.pc.toNat + 4)

/-- R86: the result of an update form is visible to the very next instruction of the thread; two `stbu` with `d` = 1 on
one base register write consecutive bytes. -/
def Obligations.NextInstructionSeesTheUpdate : Prop :=
  (∀ (i : Instr) (rs ra : RegNum) (d : Disp) (s t : State), updatedReg i = some ra → exec i s = .next t →
    readGpr ra t = (eaOf i s).setWidth 64 ∧ eaOf (.stbu rs ra d) t = eaOf i s + d.signExtend 32) ∧
  (∀ (rs rs' ra : RegNum) (s t u : State), exec (.stbu rs ra 1#16) s = .next t →
    exec (.stbu rs' ra 1#16) t = .next u →
    readByte (eaOf (.stbu rs ra 1#16) s).toNat u = (readGpr rs s).setWidth 8 ∧
    readByte (eaOf (.stbu rs ra 1#16) s + 1#32).toNat u = (readGpr rs' t).setWidth 8 ∧
    readGpr ra u = (eaOf (.stbu rs ra 1#16) s + 1#32).setWidth 64)

/-- R27, R20: storing the same byte twice leaves the memory of one store. -/
def Obligations.StoringTwiceIsStoringOnce : Prop :=
  (∀ (rs ra : RegNum) (d : Disp) (s t u : State), exec (.stb rs ra d) s = .next t →
    exec (.stb rs ra d) t = .next u → u.mem = t.mem) ∧
  (∀ (rs ra rb : RegNum) (s t u : State), exec (.stbx rs ra rb) s = .next t →
    exec (.stbx rs ra rb) t = .next u → u.mem = t.mem)

/-! ### Memory -/

/-- R20: `MemWrite` changes the byte at `addr` to `v` and no other where `Admit(addr)` holds, and faults where it does
not; 0xFFFFFFFF is an address like any other. -/
def Obligations.MemWriteChangesOneByte : Prop :=
  ∀ (ea : Addr) (v : Byte) (s : State),
    (s.params.admits ea.toNat = true → ∃ t, memWrite ea v s = .next t ∧ readByte ea.toNat t = v ∧
      ∀ a, a ≠ ea.toNat → readByte a t = readByte a s) ∧
    (s.params.admits ea.toNat = false → memWrite ea v s = .fault (.storeNotAdmitted ea))

/-- The mixed-width view of R21: after a byte is written in an aligned word, a big-endian read of the word has it in
lane `j` counted from the most significant byte, and the other lanes unchanged. -/
def Obligations.StoredByteInItsBigEndianLane : Prop :=
  ∀ (m : Memory) (q j : Nat) (v : Byte), j < 4 →
    ((m.write (4 * q + j) v).readWordBE (4 * q)).extractLsb' (24 - 8 * j) 8 = v ∧
    ∀ k, k < 4 → k ≠ j →
      ((m.write (4 * q + j) v).readWordBE (4 * q)).extractLsb' (24 - 8 * k) 8 =
        (m.readWordBE (4 * q)).extractLsb' (24 - 8 * k) 8

/-! ### Invariants and isolation -/

/-- Every step keeps memory, and the launch memory, in canonical form. -/
def Obligations.StepKeepsMemoryCanonical : Prop :=
  ∀ s t : State, MemCanonical s → step s = .next t → MemCanonical t

/-- R24: a run that starts with every `pc` a multiple of 4 stays so. -/
def Obligations.StepKeepsPcAligned : Prop :=
  ∀ s t : State, PcAligned s → step s = .next t → PcAligned t

/-- Every step keeps each byte at what the coherence order leaves there (R20, R31), keeps the coherence order one that
R31 (b) admits and the history in program order, and keeps every store inside `Admit` (R20). R31 promises the order of
each byte and a thread's program order, for any number of threads; that the order is drawn when the store is made (log
9) and the form of the two lists, with the index as a count (log 10), are the model's choice. -/
def Obligations.StepKeepsHistory : Prop :=
  (∀ s t : State, MemoryIsCoherent s → step s = .next t → MemoryIsCoherent t) ∧
  (∀ s t : State, HistoryCoherent s → step s = .next t → HistoryCoherent t) ∧
  (∀ s t : State, HistoryAdmitted s → step s = .next t → HistoryAdmitted t)

/-- Every step keeps the reservation table a set of whole granules of the machine's threads (R14), and creates no
reservation: nothing in the spec does. -/
def Obligations.StepKeepsReservations : Prop :=
  (∀ s t : State, ResvWellFormed s → step s = .next t → ResvWellFormed t) ∧
  (∀ s t : State, step s = .next t → ∀ r ∈ t.resv, r ∈ s.resv)

/-- A launch state (R19, R82 (1), (5)) meets all invariants, so does the reset state, and they hold after any number of
steps from any state that meets them. Among them are those on the store history and the coherence order, which rest on
the model's choices of log 9 (the place is drawn when the store is made) and log 10 (the form of the lists). -/
def Obligations.RunKeepsInvariants : Prop :=
  (∀ s : State, Launch s → Invariants s) ∧ Invariants State.reset ∧
  ∀ (n : Nat) (s t : State), Invariants s → Host.Core.run Sys2Proof.core n s = .next t → Invariants t

/-- The reset state is a launch state and meets the invariants. -/
def Obligations.ResetMeetsInvariants : Prop := Launch State.reset ∧ Invariants State.reset

/-- Stores reach `Admit` only: over any number of steps of any threads, no byte outside `Admit` changes, and the
parameters and the number of threads stay as they were (R20, R26, R84). -/
def Obligations.RunLeavesUnadmittedBytes : Prop :=
  ∀ (n : Nat) (s t : State), Host.Core.run Sys2Proof.core n s = .next t →
    (∀ a, s.params.admits a = false → readByte a t = readByte a s) ∧ t.params = s.params ∧
    (threads t).length = (threads s).length

/-- R13, R77: a step changes the registers and `pc` of no thread but the one that moves. -/
def Obligations.StepLeavesOtherThreads : Prop :=
  ∀ s t : State, step s = .next t →
    (threads t).length = (threads s).length ∧ ∀ k, k ≠ tid s → (threads t)[k]? = (threads s)[k]?

/-- Passing the turn (R77) rearranges no thread and touches nothing shared: it only says who moves next. -/
def Obligations.PassingTheTurnChangesNoThread : Prop :=
  ∀ s : State, threads (passTurn s) = threads s ∧ (passTurn s).mem = s.mem ∧ (passTurn s).resv = s.resv ∧
    (passTurn s).launchMem = s.launchMem ∧ (passTurn s).coherence = s.coherence ∧
    (passTurn s).history = s.history ∧ (passTurn s).params = s.params ∧ tid (passTurn s) < (threads s).length

/-- Under the invariants, the byte at every address stored to is one R31 (b) admits as final: the last store to it, in
program order, of some thread. A byte nothing stored to is as at launch. -/
def Obligations.MemoryHoldsACoherentFinalByte : Prop :=
  ∀ s : State, Invariants s → ∀ a,
    (written a s = true → CoherentFinal s a (readByte a s)) ∧ (written a s = false → readByte a s = s.launchMem.read a)

/-- R31 (b), what the model admits: a store may take any place in the coherence order of its byte that leaves the
thread's own stores to the byte in program order, and no other. Moved to such a place it leaves the order with it
inserted there, memory at EA with the last store's byte, and every other byte and its order as they were; and settling
takes one of these places, the free value (log 9) cut to their number saying which. -/
def Obligations.SettlingAdmitsEveryCoherentOrder : Prop :=
  ∀ (i : Instr) (s t : State), exec i s = .next t →
    let a := (eaOf i s).toNat
    let e : StoreEvent := ⟨tid s, storeCount (tid s) s.history, eaOf i s, (readGpr (sourceOf i) s).setWidth 8⟩
    (∀ j, PlaceAdmitted s (tid s) a j →
      storesTo a (settleAt j t) = (storesTo a s).take j ++ e :: (storesTo a s).drop j ∧
      readByte a (settleAt j t) = (if j = 0 then e.byte else byteAt a 0 s) ∧
      ∀ a', a' ≠ a → storesTo a' (settleAt j t) = storesTo a' s ∧ readByte a' (settleAt j t) = readByte a' s) ∧
    ∃ room, (∀ j, PlaceAdmitted s (tid s) a j ↔ j ≤ room) ∧
      settle t =
        if room = 0 then t
        else settleAt (Config.coherencePlace t.draws % (room + 1)) { t with draws := t.draws + 1 }

/-- R31, its last clause: where no other thread has stored to the byte, the coherence order leaves nothing open, and a
step is exactly the instruction. -/
def Obligations.SettlingIsNothingWithoutOtherStores : Prop :=
  ∀ (i : Instr) (s t : State), exec i s = .next t →
    (∀ e ∈ s.coherence, e.addr = eaOf i s → e.thread = tid s) → settle t = t

/-- R31 (c) with (b) and R29, for a larger model's loads (log 26). Every byte a load may return is the launch value or
what a recorded store to the byte wrote; any load may return what memory holds; after an instruction, before the
place of its store is settled (log 9), its own thread's load of the byte returns what it stored, while another thread's
may return any byte that it might before; once the place is settled, the own thread's load returns what it stored or what
a store of another thread placed after it did, each of them and nothing older; a second load may go on in the order but never back: after the last store's byte, where no other place
of the order has that byte, it returns it again. -/
def Obligations.LoadsAreCoherent : Prop :=
  (∀ (s : State) (t a : Nat) (bs : List Byte), LoadsReturn s t a bs → ∀ b ∈ bs,
    b = s.launchMem.read a ∨ ∃ e ∈ s.coherence, e.addr.toNat = a ∧ e.byte = b) ∧
  (∀ s : State, MemoryIsCoherent s → ∀ t a, LoadsReturn s t a [readByte a s]) ∧
  (∀ (i : Instr) (s t : State), exec i s = .next t →
    (∀ b, LoadsReturn t (tid s) (eaOf i s).toNat [b] ↔ b = (readGpr (sourceOf i) s).setWidth 8) ∧
    (∀ k, k ≠ tid s → ∀ b, LoadsReturn s k (eaOf i s).toNat [b] → LoadsReturn t k (eaOf i s).toNat [b]) ∧
    ∃ (after before : List StoreEvent) (e : StoreEvent),
      e = ⟨tid s, storeCount (tid s) s.history, eaOf i s, (readGpr (sourceOf i) s).setWidth 8⟩ ∧
      storesTo (eaOf i s).toNat s = after ++ before ∧
      storesTo (eaOf i s).toNat (settle t) = after ++ e :: before ∧ (∀ x ∈ after, x.thread ≠ tid s) ∧
      ∀ b, LoadsReturn (settle t) (tid s) (eaOf i s).toNat [b] ↔ b = e.byte ∨ ∃ x ∈ after, x.byte = b) ∧
  (∀ (s : State) (t a p q : Nat), PlaceAdmitted s t a p → q ≤ p →
    LoadsReturn s t a [byteAt a p s, byteAt a q s]) ∧
  (∀ (s : State) (t a : Nat) (b : Byte), (∀ p, 0 < p → p ≤ (storesTo a s).length → byteAt a p s ≠ byteAt a 0 s) →
    LoadsReturn s t a [byteAt a 0 s, b] → b = byteAt a 0 s)

/-! ### Launch (R82) -/

/-- From a launch state that meets the premises (1) to (5) of R82, no run of any length, however the threads take turns,
faults: the machine does not end in a fault and no thread is marked with one. None is refused but for a word of the text
that is not in the spec or a text that runs into the top of the address space, which the premises do not exclude. What
"the program text" and "every EA the program will compute" mean is the model's reading (log 27). -/
def Obligations.LaunchPremisesPreventStops : Prop :=
  ∀ s : State, LaunchPremises s → ∀ n : Nat,
    (∀ e, Host.Core.run Sys2Proof.core n s ≠ .fault e) ∧
    (∀ t : State, Host.Core.run Sys2Proof.core n s = .next t → ∀ th ∈ threads t, th.fault = none) ∧
    ∀ r, Host.Core.run Sys2Proof.core n s = .refused r → (∃ w, r = .notInSpec w) ∨ r = .pcWrap

/-- R29, R31, R82 (6): in a run from a launch state in which only thread `k` stores, every byte holds what the newest
store of the history to it wrote, in program order, and a byte nothing stored to is as at launch. A machine of one thread
is such a case. -/
def Obligations.OneStoringThreadIsExact : Prop :=
  (∀ s : State, Launch s → s.before = [] → s.after = [] → OthersNeverStore s 0) ∧
  ∀ (s : State) (k : Nat), Launch s → OthersNeverStore s k →
    ∀ (n : Nat) (t : State), Host.Core.run Sys2Proof.core n s = .next t →
      ∀ a, readByte a t = coherentByte a t.history s.mem

/-! ### Reset -/

/-- The reset state, every value of it the model's choice (logs 1, 2, 3, 4, 16): one thread, registers 0, `pc` 0x100,
memory nothing listed, no reservation, no store, no fault recorded, every address admitted, the spec's default policies; and placing a
word makes the next step run it. -/
def Obligations.ResetState : Prop :=
  (∀ r, readGpr r State.reset = 0#64) ∧ State.reset.cur.pc = 0x100#32 ∧ threads State.reset = [State.reset.cur] ∧
  (∀ a, readByte a State.reset = 0#8) ∧ State.reset.resv = [] ∧ State.reset.history = [] ∧
  State.reset.cur.fault = none ∧
  (∀ a, a < 2 ^ 32 → State.reset.params.admits a = true) ∧
  State.reset.params.invalidFormPolicy = .refuse ∧ State.reset.params.rc1Policy = .refuse ∧
  (∀ i : Instr, i.wellFormed = true → fetchInstr (State.reset.withFetchWord 32 (encode i).toNat) = .ok i ∧
    ∃ t, step (State.reset.withFetchWord 32 (encode i).toNat) = .next t)
end

