-- ==== Sys2Proof/Laws/Decode.lean ====
section
/-!
SUPPORT. Small laws of the decoder and the encoder (R38, R43): each field of an encoded word is the operand, the masks
of R42 look at the fields they cover, and bytes and words carry the same decoding.
-/

namespace Sys2Proof

/-! ### The fields of an encoded D-form word -/

section
variable (o : BitVec 6) (rs ra rb : RegNum) (d : Disp) (xo : BitVec 10)

@[simp] theorem opcdField_encodeD : opcdField (encodeD o rs ra d) = o := by
  apply BitVec.eq_of_getLsbD_eq; intro j hj
  simp only [opcdField, encodeD, BitVec.getLsbD_extractLsb', BitVec.getLsbD_append, hj, decide_true, Bool.true_and]
  split_ifs <;> first | omega | (congr 1; omega)

theorem regField_toFin (r : RegNum) {v : BitVec 5} (h : v = regField r) : v.toFin = r := by subst h; rfl

@[simp] theorem rsField_encodeD : rsField (encodeD o rs ra d) = rs := by
  apply regField_toFin
  apply BitVec.eq_of_getLsbD_eq; intro j hj
  simp only [encodeD, BitVec.getLsbD_extractLsb', BitVec.getLsbD_append, hj, decide_true, Bool.true_and]
  split_ifs <;> first | omega | (congr 1; omega)

@[simp] theorem raField_encodeD : raField (encodeD o rs ra d) = ra := by
  apply regField_toFin
  apply BitVec.eq_of_getLsbD_eq; intro j hj
  simp only [encodeD, BitVec.getLsbD_extractLsb', BitVec.getLsbD_append, hj, decide_true, Bool.true_and]
  split_ifs <;> first | omega | (congr 1; omega)

@[simp] theorem dField_encodeD : dField (encodeD o rs ra d) = d := by
  apply BitVec.eq_of_getLsbD_eq; intro j hj
  simp only [dField, encodeD, BitVec.getLsbD_extractLsb', BitVec.getLsbD_append, hj, decide_true, Bool.true_and]
  split_ifs <;> first | omega | (congr 1; omega)

/-! ### The fields of an encoded X-form word -/

@[simp] theorem opcdField_encodeX : opcdField (encodeX xo rs ra rb) = 31#6 := by
  apply BitVec.eq_of_getLsbD_eq; intro j hj
  simp only [opcdField, encodeX, BitVec.getLsbD_extractLsb', BitVec.getLsbD_append, hj, decide_true, Bool.true_and]
  split_ifs <;> first | omega | (congr 1; omega)

@[simp] theorem rsField_encodeX : rsField (encodeX xo rs ra rb) = rs := by
  apply regField_toFin
  apply BitVec.eq_of_getLsbD_eq; intro j hj
  simp only [encodeX, BitVec.getLsbD_extractLsb', BitVec.getLsbD_append, hj, decide_true, Bool.true_and]
  split_ifs <;> first | omega | (congr 1; omega)

@[simp] theorem raField_encodeX : raField (encodeX xo rs ra rb) = ra := by
  apply regField_toFin
  apply BitVec.eq_of_getLsbD_eq; intro j hj
  simp only [encodeX, BitVec.getLsbD_extractLsb', BitVec.getLsbD_append, hj, decide_true, Bool.true_and]
  split_ifs <;> first | omega | (congr 1; omega)

@[simp] theorem rbField_encodeX : rbField (encodeX xo rs ra rb) = rb := by
  apply regField_toFin
  apply BitVec.eq_of_getLsbD_eq; intro j hj
  simp only [encodeX, BitVec.getLsbD_extractLsb', BitVec.getLsbD_append, hj, decide_true, Bool.true_and]
  split_ifs <;> first | omega | (congr 1; omega)

@[simp] theorem xoField_encodeX : xoField (encodeX xo rs ra rb) = xo := by
  apply BitVec.eq_of_getLsbD_eq; intro j hj
  simp only [xoField, encodeX, BitVec.getLsbD_extractLsb', BitVec.getLsbD_append, hj, decide_true, Bool.true_and]
  split_ifs <;> first | omega | (congr 1; omega)

@[simp] theorem rcField_encodeX : rcField (encodeX xo rs ra rb) = 0#1 := by
  apply BitVec.eq_of_getLsbD_eq; intro j hj
  simp only [rcField, encodeX, BitVec.getLsbD_extractLsb', BitVec.getLsbD_append, hj, decide_true, Bool.true_and]
  split_ifs <;> first | omega | (congr 1; omega)

end

/-! ### Masks (R42) -/

/-- The mask of the D-form rows of R42 looks at OPCD alone. -/
theorem and_opcdMask_iff (w : InstrWord) (o : BitVec 6) : w &&& 0xFC000000#32 = o ++ 0#26 ↔ opcdField w = o := by
  constructor
  · intro h
    apply BitVec.eq_of_getLsbD_eq; intro j hj
    have hb := congrArg (·.getLsbD (26 + j)) h
    simp only [BitVec.getLsbD_and, BitVec.getLsbD_append, show ¬26 + j < 26 by omega, if_false,
      Nat.add_sub_cancel_left] at hb
    rw [← hb, opcdField, BitVec.getLsbD_extractLsb']
    interval_cases j <;> simp
  · rintro rfl
    apply BitVec.eq_of_getLsbD_eq; intro j hj
    simp only [BitVec.getLsbD_and, BitVec.getLsbD_append, opcdField, BitVec.getLsbD_extractLsb']
    interval_cases j <;> simp

/-- The mask of the X-form rows of R42 looks at OPCD, XO and Rc. -/
theorem and_fullMask_iff (w : InstrWord) (o : BitVec 6) (xo : BitVec 10) (rc : BitVec 1) :
    w &&& 0xFC0007FF#32 = o ++ 0#15 ++ xo ++ rc ↔ opcdField w = o ∧ xoField w = xo ∧ rcField w = rc := by
  constructor
  · intro h
    refine ⟨?_, ?_, ?_⟩ <;> apply BitVec.eq_of_getLsbD_eq <;> intro j hj
    · have hb := congrArg (·.getLsbD (26 + j)) h
      simp only [BitVec.getLsbD_and, BitVec.getLsbD_append] at hb
      rw [opcdField, BitVec.getLsbD_extractLsb']
      interval_cases j <;> simpa using hb
    · have hb := congrArg (·.getLsbD (1 + j)) h
      simp only [BitVec.getLsbD_and, BitVec.getLsbD_append] at hb
      rw [xoField, BitVec.getLsbD_extractLsb']
      interval_cases j <;> simpa using hb
    · have hb := congrArg (·.getLsbD j) h
      simp only [BitVec.getLsbD_and, BitVec.getLsbD_append] at hb
      rw [rcField, BitVec.getLsbD_extractLsb']
      interval_cases j; simpa using hb
  · rintro ⟨rfl, rfl, rfl⟩
    apply BitVec.eq_of_getLsbD_eq; intro j hj
    simp only [BitVec.getLsbD_and, BitVec.getLsbD_append, opcdField, xoField, rcField, BitVec.getLsbD_extractLsb']
    interval_cases j <;> simp

/-- The X-form mask under `ignore_bit` (R42) looks at OPCD and XO. -/
theorem and_xoMask_iff (w : InstrWord) (o : BitVec 6) (xo : BitVec 10) :
    w &&& 0xFC0007FE#32 = o ++ 0#15 ++ xo ++ 0#1 ↔ opcdField w = o ∧ xoField w = xo := by
  constructor
  · intro h
    refine ⟨?_, ?_⟩ <;> apply BitVec.eq_of_getLsbD_eq <;> intro j hj
    · have hb := congrArg (·.getLsbD (26 + j)) h
      simp only [BitVec.getLsbD_and, BitVec.getLsbD_append] at hb
      rw [opcdField, BitVec.getLsbD_extractLsb']
      interval_cases j <;> simpa using hb
    · have hb := congrArg (·.getLsbD (1 + j)) h
      simp only [BitVec.getLsbD_and, BitVec.getLsbD_append] at hb
      rw [xoField, BitVec.getLsbD_extractLsb']
      interval_cases j <;> simpa using hb
  · rintro ⟨rfl, rfl⟩
    apply BitVec.eq_of_getLsbD_eq; intro j hj
    simp only [BitVec.getLsbD_and, BitVec.getLsbD_append, opcdField, xoField, BitVec.getLsbD_extractLsb']
    interval_cases j <;> simp
/-! ### Bytes and words -/

/-- The bytes of a word, put together again, are the word (R22). -/
theorem wordOfBytes_bytesOfWord (w : InstrWord) :
    wordOfBytes (w.extractLsb' 24 8) (w.extractLsb' 16 8) (w.extractLsb' 8 8) (w.extractLsb' 0 8) = w := by
  apply BitVec.eq_of_getLsbD_eq; intro j hj
  simp only [wordOfBytes, BitVec.getLsbD_extractLsb', BitVec.getLsbD_append]
  rcases Nat.lt_or_ge j 8 with h | h
  · simp [h]
  rcases Nat.lt_or_ge j 16 with h' | h'
  · simp [show ¬j < 8 by omega, show j - 8 < 8 by omega, show 8 + (j - 8) = j by omega]
  rcases Nat.lt_or_ge j 24 with h'' | h''
  · simp [show ¬j < 8 by omega, show ¬j - 8 < 8 by omega, show j - 8 - 8 < 8 by omega,
      show 16 + (j - 8 - 8) = j by omega]
  · simp [show ¬j < 8 by omega, show ¬j - 8 < 8 by omega, show ¬j - 8 - 8 < 8 by omega,
      show j - 8 - 8 - 8 < 8 by omega, show 24 + (j - 8 - 8 - 8) = j by omega]

/-- Decoding the bytes of a word is decoding the word. -/
theorem decodeBytes_bytesOfWord (p : Rc1Policy) (w : InstrWord) (rest : List Byte) :
    decodeBytes p (bytesOfWord w ++ rest) =
      match decodeWord p w with
      | .ok i => .ok (i, rest)
      | .error e => .error (.word e) := by
  show decodeBytes p (_ :: _ :: _ :: _ :: ([] ++ rest)) = _
  cases h : decodeWord p w <;> simp only [decodeBytes, wordOfBytes_bytesOfWord, List.nil_append, h]

end Sys2Proof
end

