-- ==== Sys2Proof/Laws/State.lean ====
section
/-!
SUPPORT. One lemma per field per named update of State, each true by rfl and tagged simp, so that no proof unfolds a
record update.
-/

namespace Sys2Proof.Machine

variable (s : State) (r : RegNum) (v : Word) (ea : Addr) (b : Byte) (a : Addr) (n : NamedRegs)

/-! ### writeGpr -/

@[simp] theorem writeGpr_before : (writeGpr r v s).before = s.before := rfl
@[simp] theorem writeGpr_after : (writeGpr r v s).after = s.after := rfl
@[simp] theorem writeGpr_x : (writeGpr r v s).cur.x = s.cur.x.set r.val v := rfl
@[simp] theorem writeGpr_pc : (writeGpr r v s).cur.pc = s.cur.pc := rfl
@[simp] theorem writeGpr_endPc : (writeGpr r v s).cur.endPc = s.cur.endPc := rfl
@[simp] theorem writeGpr_fault : (writeGpr r v s).cur.fault = s.cur.fault := rfl
@[simp] theorem writeGpr_named : (writeGpr r v s).cur.named = s.cur.named := rfl
@[simp] theorem writeGpr_mem : (writeGpr r v s).mem = s.mem := rfl
@[simp] theorem writeGpr_launchMem : (writeGpr r v s).launchMem = s.launchMem := rfl
@[simp] theorem writeGpr_resv : (writeGpr r v s).resv = s.resv := rfl
@[simp] theorem writeGpr_history : (writeGpr r v s).history = s.history := rfl
@[simp] theorem writeGpr_coherence : (writeGpr r v s).coherence = s.coherence := rfl
@[simp] theorem writeGpr_draws : (writeGpr r v s).draws = s.draws := rfl
@[simp] theorem writeGpr_params : (writeGpr r v s).params = s.params := rfl

/-! ### recordStore -/

@[simp] theorem storeEvent_thread : (storeEvent ea b s).thread = tid s := rfl
@[simp] theorem storeEvent_index : (storeEvent ea b s).index = storeCount (tid s) s.history := rfl
@[simp] theorem storeEvent_addr : (storeEvent ea b s).addr = ea := rfl
@[simp] theorem storeEvent_byte : (storeEvent ea b s).byte = b := rfl

@[simp] theorem recordStore_before : (recordStore ea b s).before = s.before := rfl
@[simp] theorem recordStore_cur : (recordStore ea b s).cur = s.cur := rfl
@[simp] theorem recordStore_after : (recordStore ea b s).after = s.after := rfl
@[simp] theorem recordStore_mem : (recordStore ea b s).mem = s.mem.write ea.toNat b := rfl
@[simp] theorem recordStore_launchMem : (recordStore ea b s).launchMem = s.launchMem := rfl
@[simp] theorem recordStore_resv : (recordStore ea b s).resv = s.resv := rfl
@[simp] theorem recordStore_history : (recordStore ea b s).history = storeEvent ea b s :: s.history := rfl
@[simp] theorem recordStore_coherence : (recordStore ea b s).coherence = storeEvent ea b s :: s.coherence := rfl
@[simp] theorem recordStore_draws : (recordStore ea b s).draws = s.draws := rfl
@[simp] theorem recordStore_params : (recordStore ea b s).params = s.params := rfl

/-! ### resvKill -/

@[simp] theorem resvKill_before : (resvKill ea s).before = s.before := rfl
@[simp] theorem resvKill_cur : (resvKill ea s).cur = s.cur := rfl
@[simp] theorem resvKill_after : (resvKill ea s).after = s.after := rfl
@[simp] theorem resvKill_mem : (resvKill ea s).mem = s.mem := rfl
@[simp] theorem resvKill_launchMem : (resvKill ea s).launchMem = s.launchMem := rfl
@[simp] theorem resvKill_resv :
    (resvKill ea s).resv =
      s.resv.filter (survivesStore s.params.granule (tid s) (Config.ownReservationSurvives s.draws) ea) := rfl
@[simp] theorem resvKill_history : (resvKill ea s).history = s.history := rfl
@[simp] theorem resvKill_coherence : (resvKill ea s).coherence = s.coherence := rfl
@[simp] theorem resvKill_draws : (resvKill ea s).draws = s.draws + 1 := rfl
@[simp] theorem resvKill_params : (resvKill ea s).params = s.params := rfl

/-! ### setPc -/

@[simp] theorem setPc_before : (setPc a s).before = s.before := rfl
@[simp] theorem setPc_after : (setPc a s).after = s.after := rfl
@[simp] theorem setPc_x : (setPc a s).cur.x = s.cur.x := rfl
@[simp] theorem setPc_pc : (setPc a s).cur.pc = a := rfl
@[simp] theorem setPc_endPc : (setPc a s).cur.endPc = s.cur.endPc := rfl
@[simp] theorem setPc_fault : (setPc a s).cur.fault = s.cur.fault := rfl
@[simp] theorem setPc_named : (setPc a s).cur.named = s.cur.named := rfl
@[simp] theorem setPc_mem : (setPc a s).mem = s.mem := rfl
@[simp] theorem setPc_launchMem : (setPc a s).launchMem = s.launchMem := rfl
@[simp] theorem setPc_resv : (setPc a s).resv = s.resv := rfl
@[simp] theorem setPc_history : (setPc a s).history = s.history := rfl
@[simp] theorem setPc_coherence : (setPc a s).coherence = s.coherence := rfl
@[simp] theorem setPc_draws : (setPc a s).draws = s.draws := rfl
@[simp] theorem setPc_params : (setPc a s).params = s.params := rfl

/-! ### withNamed -/

@[simp] theorem withNamed_before : (withNamed n s).before = s.before := rfl
@[simp] theorem withNamed_after : (withNamed n s).after = s.after := rfl
@[simp] theorem withNamed_x : (withNamed n s).cur.x = s.cur.x := rfl
@[simp] theorem withNamed_pc : (withNamed n s).cur.pc = s.cur.pc := rfl
@[simp] theorem withNamed_endPc : (withNamed n s).cur.endPc = s.cur.endPc := rfl
@[simp] theorem withNamed_fault : (withNamed n s).cur.fault = s.cur.fault := rfl
@[simp] theorem withNamed_named : (withNamed n s).cur.named = n := rfl
@[simp] theorem withNamed_mem : (withNamed n s).mem = s.mem := rfl
@[simp] theorem withNamed_launchMem : (withNamed n s).launchMem = s.launchMem := rfl
@[simp] theorem withNamed_resv : (withNamed n s).resv = s.resv := rfl
@[simp] theorem withNamed_history : (withNamed n s).history = s.history := rfl
@[simp] theorem withNamed_coherence : (withNamed n s).coherence = s.coherence := rfl
@[simp] theorem withNamed_draws : (withNamed n s).draws = s.draws := rfl
@[simp] theorem withNamed_params : (withNamed n s).params = s.params := rfl

/-! ### giveTurn -/

@[simp] theorem giveTurn_mem (k : Nat) : (giveTurn k s).mem = s.mem := rfl
@[simp] theorem giveTurn_launchMem (k : Nat) : (giveTurn k s).launchMem = s.launchMem := rfl
@[simp] theorem giveTurn_resv (k : Nat) : (giveTurn k s).resv = s.resv := rfl
@[simp] theorem giveTurn_history (k : Nat) : (giveTurn k s).history = s.history := rfl
@[simp] theorem giveTurn_coherence (k : Nat) : (giveTurn k s).coherence = s.coherence := rfl
@[simp] theorem giveTurn_draws (k : Nat) : (giveTurn k s).draws = s.draws := rfl
@[simp] theorem giveTurn_params (k : Nat) : (giveTurn k s).params = s.params := rfl

/-! ### markFault -/

@[simp] theorem markFault_before (e : Fault) : (markFault e s).before = s.before := rfl
@[simp] theorem markFault_after (e : Fault) : (markFault e s).after = s.after := rfl
@[simp] theorem markFault_x (e : Fault) : (markFault e s).cur.x = s.cur.x := rfl
@[simp] theorem markFault_pc (e : Fault) : (markFault e s).cur.pc = s.cur.pc := rfl
@[simp] theorem markFault_endPc (e : Fault) : (markFault e s).cur.endPc = s.cur.endPc := rfl
@[simp] theorem markFault_fault (e : Fault) : (markFault e s).cur.fault = some e := rfl
@[simp] theorem markFault_named (e : Fault) : (markFault e s).cur.named = s.cur.named := rfl
@[simp] theorem markFault_mem (e : Fault) : (markFault e s).mem = s.mem := rfl
@[simp] theorem markFault_launchMem (e : Fault) : (markFault e s).launchMem = s.launchMem := rfl
@[simp] theorem markFault_resv (e : Fault) : (markFault e s).resv = s.resv := rfl
@[simp] theorem markFault_history (e : Fault) : (markFault e s).history = s.history := rfl
@[simp] theorem markFault_coherence (e : Fault) : (markFault e s).coherence = s.coherence := rfl
@[simp] theorem markFault_draws (e : Fault) : (markFault e s).draws = s.draws := rfl
@[simp] theorem markFault_params (e : Fault) : (markFault e s).params = s.params := rfl

/-! ### settleAt, settle: what they leave alone -/

@[simp] theorem settleAt_before (k : Nat) : (settleAt k s).before = s.before := by unfold settleAt; split <;> rfl
@[simp] theorem settleAt_cur (k : Nat) : (settleAt k s).cur = s.cur := by unfold settleAt; split <;> rfl
@[simp] theorem settleAt_after (k : Nat) : (settleAt k s).after = s.after := by unfold settleAt; split <;> rfl
@[simp] theorem settleAt_launchMem (k : Nat) : (settleAt k s).launchMem = s.launchMem := by
  unfold settleAt; split <;> rfl
@[simp] theorem settleAt_resv (k : Nat) : (settleAt k s).resv = s.resv := by unfold settleAt; split <;> rfl
@[simp] theorem settleAt_history (k : Nat) : (settleAt k s).history = s.history := by unfold settleAt; split <;> rfl
@[simp] theorem settleAt_draws (k : Nat) : (settleAt k s).draws = s.draws := by unfold settleAt; split <;> rfl
@[simp] theorem settleAt_params (k : Nat) : (settleAt k s).params = s.params := by unfold settleAt; split <;> rfl

@[simp] theorem settle_before : (settle s).before = s.before := by
  unfold settle; (repeat' split) <;> simp
@[simp] theorem settle_cur : (settle s).cur = s.cur := by unfold settle; (repeat' split) <;> simp
@[simp] theorem settle_after : (settle s).after = s.after := by unfold settle; (repeat' split) <;> simp
@[simp] theorem settle_launchMem : (settle s).launchMem = s.launchMem := by unfold settle; (repeat' split) <;> simp
@[simp] theorem settle_resv : (settle s).resv = s.resv := by unfold settle; (repeat' split) <;> simp
@[simp] theorem settle_history : (settle s).history = s.history := by unfold settle; (repeat' split) <;> simp
@[simp] theorem settle_params : (settle s).params = s.params := by unfold settle; (repeat' split) <;> simp

/-! ### The thread number depends on `before` alone -/

@[simp] theorem tid_writeGpr : tid (writeGpr r v s) = tid s := rfl
@[simp] theorem tid_recordStore : tid (recordStore ea b s) = tid s := rfl
@[simp] theorem tid_resvKill : tid (resvKill ea s) = tid s := rfl
@[simp] theorem tid_setPc : tid (setPc a s) = tid s := rfl
@[simp] theorem tid_markFault (e : Fault) : tid (markFault e s) = tid s := rfl
@[simp] theorem tid_withNamed : tid (withNamed n s) = tid s := rfl

end Sys2Proof.Machine
end

