-- ==== Sys2Proof/Laws/Memory.lean ====
section
/-!
SUPPORT. The laws of memory (R20): a read after a write to the same address, to another address, and that every write
keeps the canonical form.
-/

namespace Sys2Proof.Machine

@[simp] theorem Memory.read_nil (a : Nat) : Memory.read [] a = unlistedByte := rfl

theorem Memory.read_cons (k : Nat) (v : Byte) (m : Memory) (a : Nat) :
    Memory.read ((k, v) :: m) a = if k = a then v else Memory.read m a := rfl

theorem Memory.read_forget_same (m : Memory) (a : Nat) : (m.forget a).read a = unlistedByte := by
  induction m with
  | nil => rfl
  | cons c m ih =>
    obtain ⟨k, v⟩ := c
    by_cases hk : k = a <;> simp_all [Memory.forget, Memory.read]

theorem Memory.read_forget_other (m : Memory) {a a' : Nat} (h : a' ≠ a) : (m.forget a).read a' = m.read a' := by
  induction m with
  | nil => rfl
  | cons c m ih =>
    obtain ⟨k, v⟩ := c
    by_cases hk : k = a <;> simp_all [Memory.forget, Memory.read, Ne.symm h]

theorem Memory.read_enter_other (m : Memory) {a a' : Nat} (b : Byte) (h : a' ≠ a) :
    (m.enter a b).read a' = m.read a' := by
  induction m with
  | nil => simp [Memory.enter, Memory.read, Ne.symm h]
  | cons c m ih =>
    obtain ⟨k, v⟩ := c
    unfold Memory.enter
    split <;> simp [Memory.read, ih, Ne.symm h]

theorem Memory.read_enter_forget_same (m : Memory) (a : Nat) (b : Byte) : ((m.forget a).enter a b).read a = b := by
  induction m with
  | nil => simp [Memory.forget, Memory.enter, Memory.read]
  | cons c m ih =>
    obtain ⟨k, v⟩ := c
    by_cases hk : k = a
    · simpa [Memory.forget, hk] using ih
    · have he : Memory.forget ((k, v) :: m) a = (k, v) :: Memory.forget m a := by simp [Memory.forget, hk]
      rw [he]
      unfold Memory.enter
      split
      · rw [Memory.read_cons, if_neg hk]; exact ih
      · simp [Memory.read]

/-- A byte reads as it was written. -/
@[simp] theorem Memory.read_write_same (m : Memory) (a : Nat) (b : Byte) : (m.write a b).read a = b := by
  unfold Memory.write
  split
  · rename_i hb; rw [hb, Memory.read_forget_same]
  · exact Memory.read_enter_forget_same m a b

/-- No other byte changes. -/
theorem Memory.read_write_other (m : Memory) {a a' : Nat} (b : Byte) (h : a' ≠ a) :
    (m.write a b).read a' = m.read a' := by
  unfold Memory.write
  split
  · exact Memory.read_forget_other m h
  · rw [Memory.read_enter_other _ _ h, Memory.read_forget_other m h]

theorem Memory.wfFrom_cons {lo k : Nat} {v : Byte} {m : Memory} :
    Memory.wfFrom lo ((k, v) :: m) = true ↔ lo ≤ k ∧ k < 2 ^ 32 ∧ v ≠ unlistedByte ∧ Memory.wfFrom (k + 1) m = true := by
  simp only [Memory.wfFrom, Bool.and_eq_true, decide_eq_true_eq, and_assoc]

theorem Memory.wfFrom_weaken {lo lo' : Nat} {m : Memory} (h : lo ≤ lo') (hm : Memory.wfFrom lo' m = true) :
    Memory.wfFrom lo m = true := by
  cases m with
  | nil => rfl
  | cons c m =>
    obtain ⟨k, v⟩ := c
    rw [Memory.wfFrom_cons] at hm ⊢
    exact ⟨by omega, hm.2⟩

theorem Memory.forget_wfFrom {lo : Nat} {m : Memory} (h : Memory.wfFrom lo m = true) (a : Nat) :
    Memory.wfFrom lo (m.forget a) = true := by
  induction m generalizing lo with
  | nil => rfl
  | cons c m ih =>
    obtain ⟨k, v⟩ := c
    rw [Memory.wfFrom_cons] at h
    by_cases hk : k = a
    · have he : Memory.forget ((k, v) :: m) a = Memory.forget m a := by simp [Memory.forget, hk]
      rw [he]; exact Memory.wfFrom_weaken (by omega) (ih h.2.2.2)
    · have he : Memory.forget ((k, v) :: m) a = (k, v) :: Memory.forget m a := by simp [Memory.forget, hk]
      rw [he, Memory.wfFrom_cons]; exact ⟨h.1, h.2.1, h.2.2.1, ih h.2.2.2⟩

theorem Memory.enter_wfFrom {lo a : Nat} {b : Byte} {m : Memory} (h : Memory.wfFrom lo m = true) (hlo : lo ≤ a)
    (ha : a < 2 ^ 32) (hb : b ≠ unlistedByte) (hne : ∀ c ∈ m, c.1 ≠ a) :
    Memory.wfFrom lo (m.enter a b) = true := by
  induction m generalizing lo with
  | nil => exact Memory.wfFrom_cons.mpr ⟨hlo, ha, hb, rfl⟩
  | cons c m ih =>
    obtain ⟨k, v⟩ := c
    rw [Memory.wfFrom_cons] at h
    have hk : k ≠ a := hne (k, v) (by simp)
    unfold Memory.enter
    split
    · exact Memory.wfFrom_cons.mpr
        ⟨h.1, h.2.1, h.2.2.1, ih h.2.2.2 (by omega) fun c hc => hne c (by simp [hc])⟩
    · exact Memory.wfFrom_cons.mpr ⟨hlo, ha, hb, Memory.wfFrom_cons.mpr ⟨by omega, h.2⟩⟩

/-- A write keeps the canonical form. -/
theorem Memory.write_keeps_wf {m : Memory} (h : m.wf = true) {a : Nat} (ha : a < 2 ^ 32) (b : Byte) :
    (m.write a b).wf = true := by
  unfold Memory.write
  split
  · exact Memory.forget_wfFrom h a
  · rename_i hb
    refine Memory.enter_wfFrom (Memory.forget_wfFrom h a) (Nat.zero_le _) ha hb fun c hc => ?_
    simpa [Memory.forget] using (List.mem_filter.mp hc).2

/-- A write at an effective address keeps the canonical form. -/
theorem Memory.write_wf {m : Memory} (h : m.wf = true) (ea : Addr) (b : Byte) : (m.write ea.toNat b).wf = true :=
  Memory.write_keeps_wf h ea.isLt b

/-- Reset memory is in canonical form. -/
theorem reset_mem_wf : State.reset.mem.wf = true := rfl

end Sys2Proof.Machine
end

