-- ==== Sys2Proof/Laws/Ops.lean ====
section
/-!
SUPPORT. What each shared operation can do, said once: outcomes (`andThen`, `mapNext`), registers, the store, the
program counter, the check of the update forms, the coherence order, the fetch, the end of a step, and the passing of
the turn.
-/

namespace Sys2Proof.Machine

open Sys2Proof.Safety

/-! ### Outcomes -/

@[simp] theorem andThen_next (s : State) (f : State → Result) : andThen (.next s) f = f s := rfl
@[simp] theorem andThen_fault (e : Fault) (f : State → Result) : andThen (.fault e) f = .fault e := rfl
@[simp] theorem andThen_refused (e : Refusal) (f : State → Result) : andThen (.refused e) f = .refused e := rfl
@[simp] theorem mapNext_next (f : State → State) (s : State) : mapNext f (.next s) = .next (f s) := rfl
@[simp] theorem mapNext_fault (f : State → State) (e : Fault) : mapNext f (.fault e) = .fault e := rfl
@[simp] theorem mapNext_refused (f : State → State) (e : Refusal) : mapNext f (.refused e) = .refused e := rfl

theorem mapNext_eq_next_iff {f : State → State} {r : Result} {t : State} :
    mapNext f r = .next t ↔ ∃ u, r = .next u ∧ t = f u := by
  cases r <;> simp [eq_comm]

/-! ### Registers -/

@[simp] theorem readGpr_writeGpr_same (r : RegNum) (v : Word) (s : State) : readGpr r (writeGpr r v s) = v := by
  simp [readGpr]

theorem readGpr_writeGpr_other {r r' : RegNum} (h : r' ≠ r) (v : Word) (s : State) :
    readGpr r' (writeGpr r v s) = readGpr r' s := by
  have : r.val ≠ r'.val := fun e => h (Fin.ext e.symm)
  simp [readGpr, this]

@[simp] theorem readGpr_setPc (r : RegNum) (a : Addr) (s : State) : readGpr r (setPc a s) = readGpr r s := rfl
@[simp] theorem readGpr_recordStore (r : RegNum) (ea : Addr) (b : Byte) (s : State) :
    readGpr r (recordStore ea b s) = readGpr r s := rfl
@[simp] theorem readGpr_resvKill (r : RegNum) (ea : Addr) (s : State) :
    readGpr r (resvKill ea s) = readGpr r s := rfl
@[simp] theorem readGpr_withNamed (r : RegNum) (n : NamedRegs) (s : State) :
    readGpr r (withNamed n s) = readGpr r s := rfl

/-! ### The store, the program counter, the update form's base -/

theorem memWrite_eq_next_iff {ea : Addr} {v : Byte} {s t : State} :
    memWrite ea v s = .next t ↔ s.params.admits ea.toNat = true ∧ t = recordStore ea v s := by
  unfold memWrite
  split
  · rename_i h; simp only [h, true_and, Host.Outcome.next.injEq, eq_comm]
  · rename_i h; simp only [h, false_and, reduceCtorEq]

theorem memWrite_of_admitted {ea : Addr} {s : State} (h : s.params.admits ea.toNat = true) (v : Byte) :
    memWrite ea v s = .next (recordStore ea v s) := if_pos h

theorem memWrite_of_not_admitted {ea : Addr} {s : State} (h : s.params.admits ea.toNat = false) (v : Byte) :
    memWrite ea v s = .fault (.storeNotAdmitted ea) := by simp [memWrite, h]

theorem advancePc_eq_next_iff {s t : State} :
    advancePc s = .next t ↔ s.cur.pc.toNat + 4 < 2 ^ 32 ∧ t = setPc (s.cur.pc + 4#32) s := by
  unfold advancePc
  split
  · rename_i h; simp only [h, true_and, Host.Outcome.next.injEq, eq_comm]
  · rename_i h; simp only [h, false_and, reduceCtorEq]

theorem checkUpdateBase_eq_next_iff {ra : RegNum} {s t : State} :
    checkUpdateBase ra s = .next t ↔ ¬(ra = 0 ∧ s.params.invalidFormPolicy = .refuse) ∧ t = s := by
  unfold checkUpdateBase
  split
  · rename_i h; exact ⟨nofun, fun hn => absurd h hn.1⟩
  · rename_i h; exact ⟨fun e => ⟨h, by injection e with e; exact e.symm⟩, fun hn => by rw [hn.2]⟩

/-! ### The schedule -/

/-- Giving the turn rearranges the threads around a new focus and changes none of them. -/
theorem threads_giveTurn {k : Nat} {s : State} (h : k < (threads s).length) :
    threads (giveTurn k s) = threads s := by
  have hd : (threads s).drop k = (threads s)[k] :: (threads s).drop (k + 1) := List.drop_eq_getElem_cons h
  show (threads s).take k ++ ((threads s).drop k).headD s.cur :: (threads s).drop (k + 1) = threads s
  rw [hd, List.headD_cons, ← hd, List.take_append_drop]

theorem threads_length_pos (s : State) : 0 < (threads s).length := by simp [threads]

/-- Passing the turn changes no thread. -/
theorem threads_passTurn (s : State) : threads (passTurn s) = threads s := by
  unfold passTurn
  split
  · rfl
  · exact threads_giveTurn (s := { s with draws := s.draws + 1 }) (Nat.mod_lt _ (threads_length_pos s))

@[simp] theorem passTurn_mem (s : State) : (passTurn s).mem = s.mem := by unfold passTurn; split <;> rfl
@[simp] theorem passTurn_launchMem (s : State) : (passTurn s).launchMem = s.launchMem := by
  unfold passTurn; split <;> rfl
@[simp] theorem passTurn_coherence (s : State) : (passTurn s).coherence = s.coherence := by
  unfold passTurn; split <;> rfl
@[simp] theorem passTurn_resv (s : State) : (passTurn s).resv = s.resv := by unfold passTurn; split <;> rfl
@[simp] theorem passTurn_history (s : State) : (passTurn s).history = s.history := by unfold passTurn; split <;> rfl
@[simp] theorem passTurn_params (s : State) : (passTurn s).params = s.params := by unfold passTurn; split <;> rfl

/-- The thread that moves is one of the threads. -/
theorem cur_mem_threads (s : State) : s.cur ∈ threads s := by simp [threads]

/-! ### The reservation table -/

theorem survivesStore_iff {g t : Nat} {own : Bool} {ea : Addr} {r : Reservation} :
    survivesStore g t own ea r = true ↔ r.covers g ea = false ∨ (r.owner = t ∧ own = true) := by
  simp [survivesStore]

/-! ### The fetch -/

/-- A fetch reads a word exactly when all its checks pass (R22, R24, R33, R70). -/
theorem fetchWord_eq_ok_iff {s : State} {w : InstrWord} : fetchWord s = .ok w ↔ Fetches s w := by
  unfold fetchWord
  constructor
  · intro h
    split at h
    · cases h
    · split at h
      · cases h
      · split at h
        · cases h
        · rename_i h1 h2 h3
          refine ⟨not_not.mp h1, by simpa using h2, by simpa using h3, ?_⟩
          injection h with h; exact h.symm
  · intro h
    rw [if_neg (not_not.mpr h.aligned), if_neg (by simpa using h.fetchable), if_neg (by simpa using h.notWritten),
      h.word]

/-- A word that is read and decodes is the instruction of the step. -/
theorem fetchInstr_of_decoded {s : State} {w : InstrWord} {i : Instr} (h : Fetches s w)
    (hd : decodeWord s.params.rc1Policy w = .ok i) : fetchInstr s = .ok i := by
  simp [fetchInstr, fetchWord_eq_ok_iff.mpr h, hd]

/-- A word that is read and rejected is refused by name. -/
theorem fetchInstr_of_rejected {s : State} {w : InstrWord} {e : Reject} (h : Fetches s w)
    (hd : decodeWord s.params.rc1Policy w = .error e) : fetchInstr s = .error (refusalOf e) := by
  simp [fetchInstr, fetchWord_eq_ok_iff.mpr h, hd]

/-- A fetch that is refused for a reason of its own stops the step with it. -/
theorem step_of_fetchWord_error {s : State} {r : Refusal} (hx : running s = true) (h : fetchWord s = .error r) :
    step s = .refused r := by
  simp [step, hx, fetchInstr, h]

@[simp] theorem placeAtPc_pc (w : InstrWord) (s : State) : (placeAtPc w s).cur.pc = s.cur.pc := rfl

/-- A placed word is what the next fetch reads, when `pc` is a multiple of 4 (log 20). -/
theorem fetchWord_placeAtPc {s : State} (h : s.cur.pc.toNat % 4 = 0) (w : InstrWord) :
    fetchWord (placeAtPc w s) = .ok w := by
  have hpc := s.cur.pc.isLt
  have hf : fetchAddrs (placeAtPc w s) = fetchAddrs s := by simp only [fetchAddrs, placeAtPc_pc]
  refine fetchWord_eq_ok_iff.mpr ⟨by rw [placeAtPc_pc]; exact h, ?_, ?_, ?_⟩
  · intro a ha
    rw [hf] at ha
    show Params.fetchable (if _ then _ else _) a = true
    split
    · rename_i hall; exact List.all_eq_true.mp hall a ha
    · have h3 : (s.cur.pc + 3#32).toNat = s.cur.pc.toNat + 3 := by rw [BitVec.toNat_add]; simp; omega
      have hc : Region.contains ⟨s.cur.pc, s.cur.pc + 3#32⟩ a = true := by
        simp only [fetchAddrs, List.mem_cons, List.not_mem_nil, or_false] at ha
        simp only [Region.contains, h3, Bool.and_eq_true, decide_eq_true_eq]
        omega
      simp [Params.fetchable, hc]
  · intro a ha
    rw [hf] at ha
    show (s.history.filter _).any _ = false
    rw [List.any_eq_false]
    intro e he hea
    obtain ⟨-, he⟩ := List.mem_filter.mp he
    simp only [beq_iff_eq] at hea
    simp [hea, ha] at he
  · rw [placeAtPc_pc]
    show w = Memory.readWordBE (placeWord s.cur.pc.toNat w s.mem) s.cur.pc.toNat
    generalize s.cur.pc.toNat = p
    unfold Memory.readWordBE placeWord
    rw [Memory.read_write_other _ _ (show p ≠ p + 3 by omega), Memory.read_write_other _ _ (show p ≠ p + 2 by omega),
      Memory.read_write_other _ _ (show p ≠ p + 1 by omega), Memory.read_write_same,
      Memory.read_write_other _ _ (show p + 1 ≠ p + 3 by omega),
      Memory.read_write_other _ _ (show p + 1 ≠ p + 2 by omega), Memory.read_write_same,
      Memory.read_write_other _ _ (show p + 2 ≠ p + 3 by omega), Memory.read_write_same, Memory.read_write_same]
    exact (wordOfBytes_bytesOfWord w).symm

/-- A thread runs when it is not at its `end_pc` and has no fault recorded. -/
theorem running_eq (s : State) : running s = (s.cur.endPc != some s.cur.pc && s.cur.fault.isNone) := by
  unfold running exited
  cases s.cur.fault <;> simp [bne]

/-- After placing a word the thread that moves runs. -/
theorem running_placeAtPc (w : InstrWord) (s : State) : running (placeAtPc w s) = true := by
  rw [running_eq]
  show ((if s.cur.endPc == some s.cur.pc then none else s.cur.endPc) != some s.cur.pc && true) = true
  split
  · rfl
  · rename_i h; simpa using h

/-! ### The coherence order -/

/-- Placing a store adds it and takes none away. -/
theorem placeStore_perm (k : Nat) (e : StoreEvent) (c : List StoreEvent) : (placeStore k e c).Perm (e :: c) := by
  induction c generalizing k with
  | nil => rfl
  | cons f c ih =>
    unfold placeStore
    split
    · rfl
    · exact ((ih _).cons f).trans (.swap e f c)

/-- In the order of its own byte the store stands behind the `k` others it is placed behind. -/
theorem placeStore_filter_same (k : Nat) (e : StoreEvent) (c : List StoreEvent) :
    (placeStore k e c).filter (·.addr == e.addr) =
      (c.filter (·.addr == e.addr)).take k ++ e :: (c.filter (·.addr == e.addr)).drop k := by
  induction c generalizing k with
  | nil => simp [placeStore]
  | cons f c ih =>
    unfold placeStore
    by_cases hk : k = 0
    · simp [hk]
    · obtain ⟨k, rfl⟩ : ∃ j, k = j + 1 := ⟨k - 1, by omega⟩
      cases hf : f.addr == e.addr <;> simp [hf, ih]

/-- The order of every other byte is as before. -/
theorem placeStore_filter_other (k : Nat) (e : StoreEvent) (c : List StoreEvent) {a : Nat} (h : e.addr.toNat ≠ a) :
    (placeStore k e c).filter (·.addr.toNat == a) = c.filter (·.addr.toNat == a) := by
  have he : (e.addr.toNat == a) = false := by simpa using h
  induction c generalizing k with
  | nil => simp [placeStore, he]
  | cons f c ih =>
    unfold placeStore
    split
    · simp [he]
    · simp only [List.filter_cons, ih]

theorem addr_beq_eq (f e : StoreEvent) : (f.addr == e.addr) = (f.addr.toNat == e.addr.toNat) := by
  rw [Bool.eq_iff_iff]; simp [← BitVec.toNat_inj]

/-- The newest store of a byte is the first of its stores in the coherence order. -/
theorem lastStore_eq_head (a : Nat) (c : List StoreEvent) :
    lastStore a c = (c.filter (·.addr.toNat == a)).head? := (List.head?_filter ..).symm

theorem settleAt_of_cons {s : State} {e : StoreEvent} {c : List StoreEvent} (h : s.coherence = e :: c) (k : Nat) :
    settleAt k s =
      { s with
        coherence := placeStore k e c
        mem := s.mem.write e.addr.toNat (coherentByte e.addr.toNat (placeStore k e c) s.launchMem) } := by
  simp [settleAt, h]

/-- Settling takes some place with no more stores after it than there is room for, or changes nothing. -/
theorem settle_of_cons {s : State} {e : StoreEvent} {c : List StoreEvent} (h : s.coherence = e :: c) :
    settle s =
      if coherenceRoom e c = 0 then s
      else settleAt (Config.coherencePlace s.draws % (coherenceRoom e c + 1)) { s with draws := s.draws + 1 } := by
  simp [settle, h]

/-- What settling can do: nothing, or the newest store takes a place there is room for, memory following the order. -/
theorem settle_cases {s : State} {e : StoreEvent} {c : List StoreEvent} (h : s.coherence = e :: c) :
    settle s = s ∨ ∃ j, j ≤ coherenceRoom e c ∧ settle s =
      { s with
        coherence := placeStore j e c
        mem := s.mem.write e.addr.toNat (coherentByte e.addr.toNat (placeStore j e c) s.launchMem)
        draws := s.draws + 1 } := by
  rw [settle_of_cons h]
  split
  · exact Or.inl rfl
  · exact Or.inr ⟨_, Nat.lt_succ_iff.mp (Nat.mod_lt _ (Nat.succ_pos _)),
      settleAt_of_cons (s := { s with draws := s.draws + 1 }) h _⟩

@[simp] theorem readGpr_settle (r : RegNum) (s : State) : readGpr r (settle s) = readGpr r s := by simp [readGpr]
@[simp] theorem threads_settle (s : State) : threads (settle s) = threads s := by simp [threads]
@[simp] theorem tid_settle (s : State) : tid (settle s) = tid s := by simp [tid]

/-! ### The end of a thread's step -/

/-- Where the machine goes on without a step of the thread that moves, only the turn passes. -/
theorem idle_eq_next_iff {s t : State} :
    idle s = .next t ↔ t = passTurn s ∧ ¬(s.cur.fault.isSome = true ∧ allFaulted s = true) := by
  unfold idle
  cases s.cur.fault with
  | none => simp [@eq_comm _ _ t]
  | some e => cases h : allFaulted s <;> simp [@eq_comm _ _ t]

theorem idle_not_refused {s : State} {r : Refusal} : idle s ≠ .refused r := by
  unfold idle; repeat' split
  all_goals nofun

/-- The next states a thread's step can end in: its instruction's, with the store settled and the turn passed, or the
state before it, the thread marked with its fault. -/
theorem conclude_eq_next_iff {s t : State} {r : Result} :
    conclude s r = .next t ↔
      (∃ u, r = .next u ∧ t = passTurn (settle u)) ∨ ∃ e, r = .fault e ∧ idle (markFault e s) = .next t := by
  cases r with
  | next u => simp only [conclude, Host.Outcome.next.injEq, reduceCtorEq, false_and, exists_false, or_false,
      exists_eq_left', @eq_comm _ _ t]
  | fault e => simp [conclude]
  | refused e => simp [conclude]

/-! ### The step -/

/-- What a step that answers a next state has done: a thread that does not run only passes the turn; otherwise the
fetched instruction has run, its store is settled and the turn has passed, or it has faulted, its thread is marked and
the turn has passed. -/
theorem step_eq_next_iff {s t : State} :
    step s = .next t ↔
      (running s = false ∧ idle s = .next t) ∨
      (running s = true ∧ ∃ i, fetchInstr s = .ok i ∧
        ((∃ u, exec i s = .next u ∧ t = passTurn (settle u)) ∨
          ∃ e, exec i s = .fault e ∧ idle (markFault e s) = .next t)) := by
  unfold step
  cases hx : running s
  · simp
  · cases hf : fetchInstr s with
    | error r => simp
    | ok i => simp [conclude_eq_next_iff]

end Sys2Proof.Machine
end

