-- ==== Sys2Proof/Laws/PerInstr.lean ====
section
/-!
SUPPORT. Statements made of every instruction as syntax, one lemma per constructor: the fields of an encoded word are
the instruction's operands (R38, R42).
-/

namespace Sys2Proof.Laws.EncodedFields

/-- Each field of the encoded word (R36, R37) holds what the instruction says, and the opcode fields select it (R42). -/
def Statement : Instr → Prop
  | .stb rs ra d =>
    let w := encode (.stb rs ra d)
    opcdField w = 38#6 ∧ rsField w = rs ∧ raField w = ra ∧ dField w = d
  | .stbu rs ra d =>
    let w := encode (.stbu rs ra d)
    opcdField w = 39#6 ∧ rsField w = rs ∧ raField w = ra ∧ dField w = d
  | .stbx rs ra rb =>
    let w := encode (.stbx rs ra rb)
    opcdField w = 31#6 ∧ xoField w = 215#10 ∧ rcField w = 0#1 ∧ rsField w = rs ∧ raField w = ra ∧ rbField w = rb
  | .stbux rs ra rb =>
    let w := encode (.stbux rs ra rb)
    opcdField w = 31#6 ∧ xoField w = 247#10 ∧ rcField w = 0#1 ∧ rsField w = rs ∧ raField w = ra ∧ rbField w = rb

theorem stb (rs ra : RegNum) (d : Disp) : Statement (.stb rs ra d) := by simp [Statement, encode]

theorem stbu (rs ra : RegNum) (d : Disp) : Statement (.stbu rs ra d) := by simp [Statement, encode]

theorem stbx (rs ra rb : RegNum) : Statement (.stbx rs ra rb) := by simp [Statement, encode]

theorem stbux (rs ra rb : RegNum) : Statement (.stbux rs ra rb) := by simp [Statement, encode]

end Sys2Proof.Laws.EncodedFields
end

