-- ==== Sys2Proof/Laws/StoreByte.lean ====
section
/-!
SUPPORT. What an instruction of the family can do, said once for all four: `exec_eq_next_iff`. Proofs cite it and the
lemmas about `afterStore` instead of unfolding a meaning.
-/

namespace Sys2Proof.Machine

open Sys2Proof.Safety

/-- The update of RA, for the forms that have one (R52). -/
def updateBase (i : Instr) (ea : Addr) (s : State) : State :=
  match updatedReg i with
  | some ra => writeGpr ra (updateValue ea) s
  | none => s

/-- The state after instruction `i` has completed (R54). -/
def afterStore (i : Instr) (s : State) : State :=
  setPc (s.cur.pc + 4#32)
    (updateBase i (eaOf i s) (recordStore (eaOf i s) (storedByte (sourceOf i) s) (resvKill (eaOf i s) s)))

variable (i : Instr) (ea : Addr) (s : State)

@[simp] theorem updateBase_before : (updateBase i ea s).before = s.before := by cases i <;> rfl
@[simp] theorem updateBase_after : (updateBase i ea s).after = s.after := by cases i <;> rfl
@[simp] theorem updateBase_pc : (updateBase i ea s).cur.pc = s.cur.pc := by cases i <;> rfl
@[simp] theorem updateBase_endPc : (updateBase i ea s).cur.endPc = s.cur.endPc := by cases i <;> rfl
@[simp] theorem updateBase_fault : (updateBase i ea s).cur.fault = s.cur.fault := by cases i <;> rfl
@[simp] theorem updateBase_named : (updateBase i ea s).cur.named = s.cur.named := by cases i <;> rfl
@[simp] theorem updateBase_mem : (updateBase i ea s).mem = s.mem := by cases i <;> rfl
@[simp] theorem updateBase_launchMem : (updateBase i ea s).launchMem = s.launchMem := by cases i <;> rfl
@[simp] theorem updateBase_resv : (updateBase i ea s).resv = s.resv := by cases i <;> rfl
@[simp] theorem updateBase_history : (updateBase i ea s).history = s.history := by cases i <;> rfl
@[simp] theorem updateBase_coherence : (updateBase i ea s).coherence = s.coherence := by cases i <;> rfl
@[simp] theorem updateBase_params : (updateBase i ea s).params = s.params := by cases i <;> rfl

/-- Every outcome of an instruction, in the order of its checks (R69): an invalid form is refused, an address that is
not admitted faults, a `pc` that would leave the space is refused, and otherwise the next state is `afterStore`. -/
theorem exec_eq (i : Instr) (s : State) :
    exec i s =
      if ¬FormRuns i s then .refused .invalidFormRA0
      else if s.params.admits (eaOf i s).toNat = false then .fault (.storeNotAdmitted (eaOf i s))
      else if 2 ^ 32 ≤ s.cur.pc.toNat + 4 then .refused .pcWrap
      else .next (afterStore i s) := by
  have tail : ∀ ea : Addr, andThen (storeByte (sourceOf i) ea s) (fun s' => advancePc (updateBase i ea s')) =
      if s.params.admits ea.toNat = false then .fault (.storeNotAdmitted ea)
      else if 2 ^ 32 ≤ s.cur.pc.toNat + 4 then .refused .pcWrap
      else .next (setPc (s.cur.pc + 4#32)
        (updateBase i ea (recordStore ea (storedByte (sourceOf i) s) (resvKill ea s)))) := by
    intro ea
    unfold storeByte
    by_cases ha : s.params.admits ea.toNat = false
    · rw [memWrite_of_not_admitted (by simpa using ha), if_pos ha, andThen_fault]
    · rw [memWrite_of_admitted (by simpa using ha), if_neg ha, andThen_next, advancePc]
      by_cases hp : 2 ^ 32 ≤ s.cur.pc.toNat + 4
      · rw [if_pos hp, if_neg (by rw [updateBase_pc]; exact Nat.not_lt.mpr hp)]
      · rw [if_neg hp, if_pos (by rw [updateBase_pc]; exact Nat.not_le.mp hp), updateBase_pc]; rfl
  have base : ∀ ra : RegNum, updatedReg i = some ra → i.wellFormed = decide (ra ≠ 0) →
      checkUpdateBase ra s = if ¬FormRuns i s then .refused .invalidFormRA0 else .next s := by
    intro ra _ hw
    unfold checkUpdateBase FormRuns
    rw [hw]
    cases s.params.invalidFormPolicy <;> by_cases h0 : ra = 0 <;> simp [h0]
  cases i with
  | stb rs ra d =>
    have hf : FormRuns (.stb rs ra d) s := Or.inl rfl
    rw [if_neg (not_not.mpr hf)]; exact tail (eaStb ra d s)
  | stbx rs ra rb =>
    have hf : FormRuns (.stbx rs ra rb) s := Or.inl rfl
    rw [if_neg (not_not.mpr hf)]; exact tail (eaStbx ra rb s)
  | stbu rs ra d =>
    simp only [exec, execStbu, base ra rfl rfl]
    split
    · rfl
    · exact tail (eaStbu ra d s)
  | stbux rs ra rb =>
    simp only [exec, execStbux, base ra rfl rfl]
    split
    · rfl
    · exact tail (eaStbux ra rb s)

/-- An instruction answers a next state exactly when its form runs, its address is admitted and `pc + 4` stays in
the space; the next state is then `afterStore`. -/
theorem exec_eq_next_iff {i : Instr} {s t : State} :
    exec i s = .next t ↔
      FormRuns i s ∧ s.params.admits (eaOf i s).toNat = true ∧ s.cur.pc.toNat + 4 < 2 ^ 32 ∧ t = afterStore i s := by
  rw [exec_eq]
  constructor
  · intro h
    split at h
    · cases h
    · rename_i h1
      split at h
      · cases h
      · rename_i h2
        split at h
        · cases h
        · rename_i h3
          injection h with h
          exact ⟨not_not.mp h1, by simpa using h2, Nat.not_le.mp h3, h.symm⟩
  · rintro ⟨h1, h2, h3, rfl⟩
    rw [if_neg (not_not.mpr h1), if_neg (by simp [h2]), if_neg (Nat.not_le.mpr h3)]

variable {i s}

@[simp] theorem afterStore_before : (afterStore i s).before = s.before := by simp [afterStore]
@[simp] theorem afterStore_after : (afterStore i s).after = s.after := by simp [afterStore]
@[simp] theorem afterStore_pc : (afterStore i s).cur.pc = s.cur.pc + 4#32 := by simp [afterStore]
@[simp] theorem afterStore_endPc : (afterStore i s).cur.endPc = s.cur.endPc := by simp [afterStore]
@[simp] theorem afterStore_fault : (afterStore i s).cur.fault = s.cur.fault := by simp [afterStore]
@[simp] theorem afterStore_named : (afterStore i s).cur.named = s.cur.named := by simp [afterStore]
@[simp] theorem afterStore_params : (afterStore i s).params = s.params := by simp [afterStore]
@[simp] theorem afterStore_launchMem : (afterStore i s).launchMem = s.launchMem := by simp [afterStore]

@[simp] theorem afterStore_mem :
    (afterStore i s).mem = s.mem.write (eaOf i s).toNat (storedByte (sourceOf i) s) := by simp [afterStore]

@[simp] theorem afterStore_resv :
    (afterStore i s).resv = s.resv.filter (survivesStore s.params.granule (tid s)
      (Config.ownReservationSurvives s.draws) (eaOf i s)) := by simp [afterStore]

@[simp] theorem afterStore_history :
    (afterStore i s).history = storeEvent (eaOf i s) (storedByte (sourceOf i) s) s :: s.history := by
  simp [afterStore, storeEvent]

@[simp] theorem afterStore_coherence :
    (afterStore i s).coherence = storeEvent (eaOf i s) (storedByte (sourceOf i) s) s :: s.coherence := by
  simp [afterStore, storeEvent]

/-- The register an update form writes holds the zero-extended address. -/
theorem readGpr_afterStore_updated {ra : RegNum} (h : updatedReg i = some ra) :
    readGpr ra (afterStore i s) = updateValue (eaOf i s) := by
  simp [afterStore, updateBase, h]

/-- Every other register is unchanged. -/
theorem readGpr_afterStore_other {r : RegNum} (h : updatedReg i ≠ some r) :
    readGpr r (afterStore i s) = readGpr r s := by
  unfold afterStore updateBase
  split
  · rename_i ra hra
    have hr : r ≠ ra := fun e => h (e ▸ hra)
    simp [readGpr_writeGpr_other hr]
  · simp

end Sys2Proof.Machine
end

