-- ==== Sys2Proof/Laws/Run.lean ====
section
/-!
SUPPORT. Runs of many steps: a run cut off its last step, for each outcome, and the induction over a run from its start.
-/

namespace Sys2Proof.Machine

/-- A run of `n + 1` steps is a run of `n` steps and one more. -/
theorem run_succ (M : Host.Core) (n : Nat) (s : M.State) :
    M.run (n + 1) s =
      match M.run n s with
      | .next u => M.step u
      | .fault e => .fault e
      | .refused r => .refused r := by
  induction n generalizing s with
  | zero =>
    show (match M.step s with
      | .next s' => Host.Outcome.next s'
      | .fault r => .fault r
      | .refused r => .refused r) = M.step s
    cases M.step s <;> rfl
  | succ n ih =>
    rw [Host.Core.run]
    conv_rhs => rw [Host.Core.run]
    cases M.step s with
    | next u => exact ih u
    | fault e => rfl
    | refused r => rfl

/-- Where a run of `n + 1` steps came from: for each outcome, the run of `n` steps before it. -/
theorem run_succ_from (M : Host.Core) (n : Nat) (s : M.State) :
    (∀ t, M.run (n + 1) s = .next t → ∃ u, M.run n s = .next u ∧ M.step u = .next t) ∧
    (∀ e, M.run (n + 1) s = .fault e → M.run n s = .fault e ∨ ∃ u, M.run n s = .next u ∧ M.step u = .fault e) ∧
    (∀ r, M.run (n + 1) s = .refused r →
      M.run n s = .refused r ∨ ∃ u, M.run n s = .next u ∧ M.step u = .refused r) := by
  rw [run_succ]
  cases M.run n s <;> simp

/-- A run that goes on for `n + 1` steps goes on for `n`, and its last step goes on. -/
theorem run_succ_eq_next {n : Nat} {s t : State} (h : Host.Core.run Sys2Proof.core (n + 1) s = .next t) :
    ∃ u : State, Host.Core.run Sys2Proof.core n s = .next u ∧ step u = .next t :=
  (run_succ_from Sys2Proof.core n s).1 t h

/-- A run that faults has faulted one step before, or its last step does. -/
theorem run_succ_eq_fault {n : Nat} {s : State} {e : Fault} (h : Host.Core.run Sys2Proof.core (n + 1) s = .fault e) :
    Host.Core.run Sys2Proof.core n s = .fault e ∨
      ∃ u : State, Host.Core.run Sys2Proof.core n s = .next u ∧ step u = .fault e :=
  (run_succ_from Sys2Proof.core n s).2.1 e h

/-- A run that is refused has been refused one step before, or its last step is. -/
theorem run_succ_eq_refused {n : Nat} {s : State} {r : Refusal}
    (h : Host.Core.run Sys2Proof.core (n + 1) s = .refused r) :
    Host.Core.run Sys2Proof.core n s = .refused r ∨
      ∃ u : State, Host.Core.run Sys2Proof.core n s = .next u ∧ step u = .refused r :=
  (run_succ_from Sys2Proof.core n s).2.2 r h

/-- What holds at the start and is kept by each step of the run holds wherever the run goes on to. -/
theorem run_induction {s : State} (P : State → Prop) (start : P s)
    (kept : ∀ (n : Nat) (u t : State), Host.Core.run Sys2Proof.core n s = .next u → P u → step u = .next t → P t)
    (n : Nat) (t : State) (h : Host.Core.run Sys2Proof.core n s = .next t) : P t := by
  induction n generalizing t with
  | zero => injection h with h; subst h; exact start
  | succ n ih =>
    obtain ⟨u, hu, ht⟩ := run_succ_eq_next h
    exact kept n u t hu (ih u hu) ht

end Sys2Proof.Machine
end

