-- ==== Sys2Proof/Tests/Slice0.lean ====
section
/-!
SUPPORT. Tests: the vectors of spec/95_test_vectors.md (decoding, execution, faults, reservations), the WellFormed smoke
test, and for each statement with hypotheses a witness that meets them together. Expected values are the spec's.
-/

namespace Sys2Proof.Tests

open Sys2Proof.Machine Sys2Proof.Safety

/-! ### Small states -/

/-- The reset state with registers set. -/
def withRegs (rs : List (RegNum × Word)) : State := rs.foldl (fun s p => writeGpr p.1 p.2 s) State.reset

/-- Only the bytes from `first` to `last` admitted. -/
def admitting (first last : Addr) (s : State) : State := { s with params := { s.params with admitRegions := [⟨first, last⟩] } }

/-- A second thread, at reset, after the one that moves. -/
def withSecondThread (s : State) : State := { s with after := [ThreadState.reset] }

def withPolicy (p : InvalidFormPolicy) (s : State) : State :=
  { s with params := { s.params with invalidFormPolicy := p } }

/-- The state an outcome goes on with, seen through `f`. -/
def nextOf {α : Type} (f : State → α) : Result → Option α
  | .next s => some (f s)
  | _ => none

def faultOf : Result → Option Fault
  | .fault e => some e
  | _ => none

def refusalIn : Result → Option Refusal
  | .refused e => some e
  | _ => none

theorem exists_next {r : Result} (h : nextOf (fun _ => ()) r = some ()) : ∃ t, r = .next t := by
  cases r <;> simp_all [nextOf]

theorem fault_eq {r : Result} {e : Fault} (h : faultOf r = some e) : r = .fault e := by
  cases r <;> simp_all [faultOf]

theorem refused_eq {r : Result} {e : Refusal} (h : refusalIn r = some e) : r = .refused e := by
  cases r <;> simp_all [refusalIn]

/-! ### WellFormed: each check refuses an ill-formed term (R46) -/

theorem test_stbu_ra0_ill_formed : (Instr.stbu 3 0 1#16).wellFormed = false := by decide
theorem test_stbux_ra0_ill_formed : (Instr.stbux 3 0 5).wellFormed = false := by decide
theorem test_valid_forms_well_formed :
    (Instr.stb 3 0 1#16).wellFormed = true ∧ (Instr.stbu 3 4 1#16).wellFormed = true ∧
    (Instr.stbx 3 0 5).wellFormed = true ∧ (Instr.stbux 3 4 5).wellFormed = true := by decide

/-! ### Decoding: section 2 of the vectors, each word as the spec writes it -/

theorem test_decode_stb :
    decodeWord .refuse 0x98000000#32 = .ok (.stb 0 0 0x0000#16) ∧
    decodeWord .refuse 0x98640000#32 = .ok (.stb 3 4 0x0000#16) ∧
    decodeWord .refuse 0x98A1FFFF#32 = .ok (.stb 5 1 0xFFFF#16) ∧
    decodeWord .refuse 0x9BFFFFFF#32 = .ok (.stb 31 31 0xFFFF#16) := by decide

theorem test_decode_stbu :
    decodeWord .refuse 0x9C640001#32 = .ok (.stbu 3 4 0x0001#16) ∧
    decodeWord .refuse 0x9FFF7FFF#32 = .ok (.stbu 31 31 0x7FFF#16) ∧
    decodeWord .refuse 0x9C1F0000#32 = .ok (.stbu 0 31 0x0000#16) ∧
    decodeWord .refuse 0x9C600001#32 = .ok (.stbu 3 0 0x0001#16) := by decide

theorem test_decode_stbx :
    decodeWord .refuse 0x7C0001AE#32 = .ok (.stbx 0 0 0) ∧
    decodeWord .refuse 0x7C6429AE#32 = .ok (.stbx 3 4 5) ∧
    decodeWord .refuse 0x7FFFF9AE#32 = .ok (.stbx 31 31 31) := by decide

theorem test_decode_stbux :
    decodeWord .refuse 0x7C6429EE#32 = .ok (.stbux 3 4 5) ∧
    decodeWord .refuse 0x7FFEE9EE#32 = .ok (.stbux 31 30 29) ∧
    decodeWord .refuse 0x7C6029EE#32 = .ok (.stbux 3 0 5) := by decide

theorem test_decode_reserved_rc :
    decodeWord .refuse 0x7C6429AF#32 = .error .reservedRcBit ∧
    decodeWord .refuse 0x7C6029EF#32 = .error .reservedRcBit ∧
    decodeWord .ignoreBit 0x7C6429AF#32 = .ok (.stbx 3 4 5) := by decide

theorem test_decode_not_in_spec :
    ∀ w ∈ [0x7C0001AC#32, 0x7C0001B0#32, 0x7C0001EC#32, 0x7C0001F0#32, 0x7C0005AE#32, 0x7C0003EE#32, 0x94000000#32,
      0xA0000000#32, 0x00000000#32, 0xFFFFFFFF#32], decodeWord .refuse w = .error (.notInSpec w) := by
  intro w hw
  simp only [List.mem_cons, List.not_mem_nil, or_false] at hw
  rcases hw with rfl | rfl | rfl | rfl | rfl | rfl | rfl | rfl | rfl | rfl <;> rfl

theorem test_decode_bytes :
    decodeBytes .refuse [0x7C#8, 0x64#8, 0x29#8, 0xEE#8, 0x98#8] = .ok (.stbux 3 4 5, [0x98#8]) ∧
    decodeBytes .refuse [0x98#8, 0x64#8] = .error .tooShort := by decide

theorem test_decode_table_word :
    decodeTableWord 32 0x98000000 = some (.stb 0 0 0#16) ∧ decodeTableWord 32 0x7C0001AE = some (.stbx 0 0 0) := by
  decide

theorem test_encode :
    encode (.stb 3 4 0#16) = 0x98640000#32 ∧ encode (.stbu 8 8 0xFFFF#16) = 0x9D08FFFF#32 ∧
    encode (.stbx 9 1 2) = 0x7D2111AE#32 ∧ encode (.stbux 3 4 0) = 0x7C6401EE#32 := by decide

/-! ### Execution: at most two vectors an instruction -/

/-- What a vector checks: `mem[EA]`, `pc`, and one register. -/
def seen (ea : Nat) (r : RegNum) (s : State) : Byte × Addr × Word := (readByte ea s, s.cur.pc, readGpr r s)

/-- E3: RA0 = 0 is the literal 0 although `r0` is not. -/
theorem test_stb_E3 : nextOf (seen 0x10 0) (exec (.stb 0 0 16#16) (withRegs [(0, 0xABCD#64)])) =
    some (0xCD#8, 0x104#32, 0xABCD#64) := by decide

/-- E2: negative displacement, odd address, high bits of RS ignored. -/
theorem test_stb_E2 : nextOf (seen 0x1FFF 1)
    (exec (.stb 5 1 0xFFFF#16) (withRegs [(5, 0xFFFFFFFFFFFFFF01#64), (1, 0x2000#64)])) =
    some (0x01#8, 0x104#32, 0x2000#64) := by decide

/-- E11: RA = RS, the byte from the old value, the register ends as EA. -/
theorem test_stbu_E11 : nextOf (seen 0x2000 8) (exec (.stbu 8 8 0xFFFF#16) (withRegs [(8, 0x2001#64)])) =
    some (0x01#8, 0x104#32, 0x2000#64) := by decide

/-- E16: RA gets the zero-extended EA, not the 64-bit −1. -/
theorem test_stbu_E16 : nextOf (seen 0xFFFFFFFF 4) (exec (.stbu 3 4 0xFFFF#16) (withRegs [(3, 0x5A#64)])) =
    some (0x5A#8, 0x104#32, 0x00000000FFFFFFFF#64) := by decide

/-- E21: RA0 = 0 is the literal 0, RB = 0 and RS = 0 read `r0`. -/
theorem test_stbx_E21 : nextOf (seen 0x1234 0) (exec (.stbx 0 0 0) (withRegs [(0, 0x1234#64)])) =
    some (0x34#8, 0x104#32, 0x1234#64) := by decide

/-- E23: all three fields the same register, the doubling carries out of 32 bits. -/
theorem test_stbx_E23 : nextOf (seen 0x2 31) (exec (.stbx 31 31 31) (withRegs [(31, 0x80000001#64)])) =
    some (0x01#8, 0x104#32, 0x80000001#64) := by decide

/-- E28: RS = RA = RB, all reads before the write. -/
theorem test_stbux_E28 : nextOf (seen 0x1002 4) (exec (.stbux 4 4 4) (withRegs [(4, 0x801#64)])) =
    some (0x01#8, 0x104#32, 0x1002#64) := by decide

/-- E31: the high halves are dropped from RA. -/
theorem test_stbux_E31 : nextOf (seen 0x2004 4)
    (exec (.stbux 3 4 5) (withRegs [(3, 0x5A#64), (4, 0xDEADBEEF00002000#64), (5, 0xCAFEF00D00000004#64)])) =
    some (0x5A#8, 0x104#32, 0x2004#64) := by decide

/-! ### Faults, refusals, reservations, the first step -/

/-- F2: one past the window. -/
theorem test_fault_F2 : faultOf (exec (.stbu 3 4 1#16) (admitting 0x1000#32 0x1FFF#32 (withRegs [(4, 0x1FFF#64)]))) =
    some (.storeNotAdmitted 0x2000#32) := by decide

/-- E19: an update form with RA = 0. -/
theorem test_refused_E19 : refusalIn (exec (.stbu 3 0 1#16) (withRegs [(3, 0x5A#64), (0, 0x1000#64)])) =
    some .invalidFormRA0 := by decide

/-- V1 and V2: thread 1 holds the granule 0x1000 and the granule 0x1080; thread 0 stores at 0x1000. -/
theorem test_reservations_V1_V2 :
    nextOf (·.resv) (exec (.stb 3 4 0#16)
      { withSecondThread (withRegs [(4, 0x1000#64)]) with resv := [⟨1, 0x1000#32⟩, ⟨1, 0x1080#32⟩] }) =
    some [⟨1, 0x1080#32⟩] := by decide

/-- V3: any byte of the granule, not only its first. -/
theorem test_reservation_V3 :
    nextOf (·.resv) (exec (.stbx 3 4 5)
      { withSecondThread (withRegs [(4, 0x1000#64), (5, 0x20#64)]) with resv := [⟨1, 0x1000#32⟩] }) = some [] := by
  decide

/-- S1 as the first instruction after reset. -/
theorem test_first_step : nextOf (·.cur.pc) (step (State.reset.withFetchWord 32 0x98000000)) = some 0x104#32 := by
  decide

/-- From reset with nothing placed the first fetch reads 0x00000000, which is not in the spec (log 20). -/
theorem test_reset_alone : refusalIn (step State.reset) = some (.notInSpec 0#32) := by decide

/-! ### Witnesses: each statement's hypotheses, met together -/

/-- A placed instruction, ready to be fetched. -/
def placed (w : Nat) (s : State) : State := s.withFetchWord 32 w

/-- The reset thread stopped at `pc`. -/
def atPc (a : Addr) (s : State) : State := setPc a s

theorem fetches_of {s : State} {w : InstrWord} (h : fetchWord s = .ok w) : Fetches s w := fetchWord_eq_ok_iff.mp h

theorem test_witness_DecodeThenEncode : decodeWord .refuse 0x7FFEE9EE#32 = .ok (.stbux 31 30 29) := by decide

theorem test_witness_SetRcBitIsReserved :
    0x7C6429AF#32 &&& 0xFC0007FF#32 = 0x7C0001AF#32 ∧ 0x7C6029EF#32 &&& 0xFC0007FF#32 = 0x7C0001EF#32 ∧
    running (placed 0x7C6429AF State.reset) = true ∧ Fetches (placed 0x7C6429AF State.reset) 0x7C6429AF#32 ∧
    (placed 0x7C6429AF State.reset).params.rc1Policy = .refuse :=
  ⟨by decide, by decide, by decide, fetches_of (by decide), by decide⟩

theorem test_witness_OtherWordsAreNotInSpec :
    running (placed 0x94000000 State.reset) = true ∧ Fetches (placed 0x94000000 State.reset) 0x94000000#32 ∧
    0x94000000#32 &&& 0xFC000000#32 ≠ 0x98000000#32 ∧ 0x94000000#32 &&& 0xFC000000#32 ≠ 0x9C000000#32 ∧
    0x94000000#32 &&& 0xFC0007FE#32 ≠ 0x7C0001AE#32 ∧ 0x94000000#32 &&& 0xFC0007FE#32 ≠ 0x7C0001EE#32 :=
  ⟨by decide, fetches_of (by decide), by decide, by decide, by decide, by decide⟩

theorem test_witness_FetchIsBigEndian_read : Fetches (placed 0x7C6429EE State.reset) 0x7C6429EE#32 :=
  fetches_of (by decide)

/-- Also a witness of the clause FetchNotAdmitted of StepChecksInOrder: one byte short of the word. -/
theorem test_witness_FetchIsBigEndian_refused :
    let s := admitting 0x100#32 0x102#32 State.reset
    running s = true ∧ s.cur.pc.toNat % 4 = 0 ∧ ∃ a ∈ fetchAddrs s, s.params.fetchable a = false := by decide

theorem test_witness_StepRunsDecodedInstruction_next :
    running (placed 0x98640000 State.reset) = true ∧ Fetches (placed 0x98640000 State.reset) 0x98640000#32 ∧
    decodeWord (placed 0x98640000 State.reset).params.rc1Policy 0x98640000#32 = .ok (.stb 3 4 0#16) ∧
    ∃ t, exec (.stb 3 4 0#16) (placed 0x98640000 State.reset) = .next t :=
  ⟨by decide, fetches_of (by decide), by decide, exists_next (by decide)⟩

/-- Also a witness of UnadmittedStoreFaults and of the clause StoreNotAdmitted of StepChecksInOrder (F1). -/
theorem test_witness_StepRunsDecodedInstruction_fault :
    let s := placed 0x98640000 (admitting 0x1000#32 0x1FFF#32 (withRegs [(4, 0x2000#64)]))
    running s = true ∧ Fetches s 0x98640000#32 ∧ decodeWord s.params.rc1Policy 0x98640000#32 = .ok (.stb 3 4 0#16) ∧
    FormRuns (.stb 3 4 0#16) s ∧ s.params.admits (eaOf (.stb 3 4 0#16) s).toNat = false ∧
    exec (.stb 3 4 0#16) s = .fault (.storeNotAdmitted 0x2000#32) :=
  ⟨by decide, fetches_of (by decide), by decide, by decide, by decide, fault_eq (by decide)⟩

/-- Also a witness of the clause InvalidFormRA0 of StepChecksInOrder (E33). -/
theorem test_witness_StepRunsDecodedInstruction_refused :
    let s := placed 0x7C6029EE State.reset
    running s = true ∧ Fetches s 0x7C6029EE#32 ∧ decodeWord s.params.rc1Policy 0x7C6029EE#32 = .ok (.stbux 3 0 5) ∧
    ¬FormRuns (.stbux 3 0 5) s ∧ exec (.stbux 3 0 5) s = .refused .invalidFormRA0 :=
  ⟨by decide, fetches_of (by decide), by decide, by decide, refused_eq (by decide)⟩

theorem test_witness_StepChecksInOrder_misaligned :
    running (atPc 0x102#32 State.reset) = true ∧ (atPc 0x102#32 State.reset).cur.pc.toNat % 4 ≠ 0 := by decide

/-- Also a witness of FetchOfWrittenCodeIsRefused: the last of the four bytes was stored to. -/
theorem test_witness_StepChecksInOrder_written :
    let s := recordStore 0x103#32 0x5A#8 State.reset
    running s = true ∧ s.cur.pc.toNat % 4 = 0 ∧ (∀ a ∈ fetchAddrs s, s.params.fetchable a = true) ∧
    ∃ a ∈ fetchAddrs s, written a s = true := by decide

theorem test_witness_StepChecksInOrder_rejected :
    Fetches (placed 0xFFFFFFFF State.reset) 0xFFFFFFFF#32 ∧
    decodeWord (placed 0xFFFFFFFF State.reset).params.rc1Policy 0xFFFFFFFF#32 = .error (.notInSpec 0xFFFFFFFF#32) ∧
    Fetches (placed 0x7C6029EF State.reset) 0x7C6029EF#32 ∧
    decodeWord (placed 0x7C6029EF State.reset).params.rc1Policy 0x7C6029EF#32 = .error .reservedRcBit :=
  ⟨fetches_of (by decide), by decide, fetches_of (by decide), by decide⟩

/-- The last word of the space, and the last but one. Also witnesses of PcNeverWraps. -/
theorem test_witness_StepChecksInOrder_top :
    let s := placed 0x98640000 (atPc 0xFFFFFFFC#32 (withRegs [(4, 0x1000#64)]))
    let s' := placed 0x98640000 (atPc 0xFFFFFFF8#32 (withRegs [(4, 0x1000#64)]))
    (Fetches s 0x98640000#32 ∧ FormRuns (.stb 3 4 0#16) s ∧ s.params.admits (eaOf (.stb 3 4 0#16) s).toNat = true ∧
      2 ^ 32 ≤ s.cur.pc.toNat + 4) ∧
    (Fetches s' 0x98640000#32 ∧ FormRuns (.stb 3 4 0#16) s' ∧
      s'.params.admits (eaOf (.stb 3 4 0#16) s').toNat = true ∧ s'.cur.pc.toNat + 4 < 2 ^ 32 ∧
      ∃ t, exec (.stb 3 4 0#16) s' = .next t) :=
  ⟨⟨fetches_of (by decide), by decide, by decide, by decide⟩,
    ⟨fetches_of (by decide), by decide, by decide, by decide, exists_next (by decide)⟩⟩

theorem reset_launch : Launch State.reset where
  pcAligned := by unfold PcAligned; decide
  endAligned := by intro t ht a ha; simp [threads, State.reset] at ht; subst ht; cases ha
  noFault := by decide
  nothingStored := ⟨rfl, rfl⟩
  launchMem := rfl
  memCanonical := ⟨rfl, rfl⟩
  resvWellFormed := ⟨List.nodup_nil, fun _ h => by cases h⟩

/-- Also a witness of RunKeepsInvariants. -/
theorem test_witness_FetchOfWrittenCodeIsRefused_launch : Launch State.reset := reset_launch

/-- Program text in `Code` at 0x10000, one admitted store made at 0x2000 (P1). -/
theorem test_witness_CodeOutsideAdmitIsNeverWritten :
    let s₀ := admitting 0x2000#32 0x2003#32 (atPc 0x10000#32 State.reset)
    let s := recordStore 0x2000#32 0x48#8 { s₀ with params := { s₀.params with code := [⟨0x10000#32, 0x1000F#32⟩] } }
    HistoryAdmitted s ∧ (∀ a, s.params.code.any (·.contains a) = true → s.params.admits a = false) ∧
    ∀ a ∈ fetchAddrs s, s.params.code.any (·.contains a) = true := by
  refine ⟨?_, ?_, by decide⟩
  · intro e he
    simp only [recordStore_history, admitting, atPc, setPc, State.reset, List.mem_cons, List.not_mem_nil,
      or_false] at he
    subst he
    decide
  · intro a ha
    simp [admitting, Region.contains, Params.admits] at ha ⊢
    omega

theorem test_witness_ExitedThreadTakesNoStep :
    let s : State := { State.reset with cur := { ThreadState.reset with endPc := some 0x100#32 } }
    s.cur.endPc = some s.cur.pc ∧ s.cur.fault = none ∧ s.before = [] ∧ s.after = [] := by decide

/-- The reset thread marked with a fault. -/
def faulted (s : State) : State := markFault (.storeNotAdmitted 0x2000#32) s

/-- Both clauses: another thread goes on, and none is left. -/
theorem test_witness_FaultedThreadTakesNoStep :
    (faulted State.reset).cur.fault = some (.storeNotAdmitted 0x2000#32) ∧
    (∃ th ∈ threads (faulted (withSecondThread State.reset)), th.fault = none) ∧
    ∀ th ∈ threads (faulted State.reset), th.fault ≠ none := by decide

theorem test_witness_FaultMarksItsThreadForGood :
    (∃ t, Host.Core.run Sys2Proof.core 1 (faulted (withSecondThread State.reset)) = .next t) ∧
    (threads (faulted (withSecondThread State.reset)))[0]? = some (faulted State.reset).cur ∧
    (faulted State.reset).cur.fault ≠ none ∧
    step (faulted State.reset) = .fault (.storeNotAdmitted 0x2000#32) ∧ step State.reset = .refused (.notInSpec 0#32) :=
  ⟨exists_next (r := Host.Core.run Sys2Proof.core 1 _) (by decide), by decide, by decide, fault_eq (by decide),
    refused_eq (by decide)⟩

/-- F1 in a machine of two threads and of one: both clauses of StepFaults. -/
theorem test_witness_StepFaults :
    let s := placed 0x98640000 (admitting 0x1000#32 0x1FFF#32 (withRegs [(4, 0x2000#64)]))
    (∃ th ∈ (withSecondThread s).before ++ (withSecondThread s).after, th.fault = none) ∧
    (∃ t, step (withSecondThread s) = .next t) ∧
    (∀ th ∈ s.before ++ s.after, th.fault ≠ none) ∧ step s = .fault (.storeNotAdmitted 0x2000#32) :=
  ⟨by decide, exists_next (by decide), by decide, fault_eq (by decide)⟩

theorem test_witness_NoRegisterIsHardwired : (31 : RegNum) ≠ 0 := by decide

/-- Also a witness of the RA ≠ 0 clauses of CoincidingRegistersUseOldValues. -/
theorem test_witness_RaZeroIsLiteralZero : (1 : RegNum) ≠ 0 := by decide

/-- F3's window: its last byte is admitted, the one after it is not. -/
theorem test_witness_StbMeaning :
    let s := admitting 0x1000#32 0x1FFF#32 (withRegs [(4, 0x1FFF#64)])
    (s.params.admits ((readGpr 4 s + (0#16).signExtend 64).setWidth 32 : Addr).toNat = true ∧
      s.cur.pc.toNat + 4 < 2 ^ 32) ∧
    s.params.admits ((readGpr 4 s + (1#16).signExtend 64).setWidth 32 : Addr).toNat = false := by decide

theorem test_witness_StbuMeaning :
    let s := admitting 0x1000#32 0x1FFF#32 (withRegs [(4, 0x1FFE#64)])
    ((0 : RegNum) = 0 ∧ s.params.invalidFormPolicy = .refuse) ∧
    ((4 : RegNum) ≠ 0 ∧ s.params.admits ((readGpr 4 s + (1#16).signExtend 64).setWidth 32 : Addr).toNat = true ∧
      s.cur.pc.toNat + 4 < 2 ^ 32) ∧
    s.params.admits ((readGpr 4 s + (2#16).signExtend 64).setWidth 32 : Addr).toNat = false := by decide

theorem test_witness_StbxMeaning :
    let s := admitting 0x1000#32 0x1FFF#32 (withRegs [(4, 0x1000#64), (5, 0xFFF#64), (6, 0x1000#64)])
    (s.params.admits ((readGpr 4 s + readGpr 5 s).setWidth 32 : Addr).toNat = true ∧ s.cur.pc.toNat + 4 < 2 ^ 32) ∧
    s.params.admits ((readGpr 4 s + readGpr 6 s).setWidth 32 : Addr).toNat = false := by decide

/-- F4: one byte below the window. -/
theorem test_witness_StbuxMeaning :
    let s := admitting 0x1000#32 0x1FFF#32 (withRegs [(4, 0x1000#64), (5, 0xFFFFFFFFFFFFFFFF#64)])
    ((0 : RegNum) = 0 ∧ s.params.invalidFormPolicy = .refuse) ∧
    ((4 : RegNum) ≠ 0 ∧ s.params.admits ((readGpr 4 s + readGpr 6 s).setWidth 32 : Addr).toNat = true ∧
      s.cur.pc.toNat + 4 < 2 ^ 32) ∧
    s.params.admits ((readGpr 4 s + readGpr 5 s).setWidth 32 : Addr).toNat = false := by decide

/-- Also a witness of StoredByteIsLowByteOfSource, ReservationsOnTheGranuleAreKilled and PcNeverWraps. -/
theorem test_witness_NonUpdateFormsFrame :
    (∃ t, exec (.stb 3 4 1#16) (withRegs [(4, 0x1000#64)]) = .next t) ∧
    (∃ t, exec (.stbx 3 4 5) (withRegs [(4, 0x1000#64)]) = .next t) :=
  ⟨exists_next (by decide), exists_next (by decide)⟩

/-- Also a witness of UpdateWritesZeroExtendedAddress and CoincidingRegistersUseOldValues. -/
theorem test_witness_UpdateFormsFrame :
    (∃ t, exec (.stbu 4 4 1#16) (withRegs [(4, 0x1000#64)]) = .next t) ∧ updatedReg (.stbu 4 4 1#16) = some 4 ∧
    (∃ t, exec (.stbux 4 4 5) (withRegs [(4, 0x1000#64)]) = .next t) ∧ updatedReg (.stbux 4 4 5) = some 4 :=
  ⟨exists_next (by decide), rfl, exists_next (by decide), rfl⟩

theorem test_witness_OtherThreadsAreNeitherReadNorWritten :
    [ThreadState.reset].length = ({ State.reset with before := [ThreadState.reset] } : State).before.length := by decide

/-- V4: after thread 0's store a reservation on the granule can only be its own. -/
theorem test_witness_ReservationsOnTheGranuleAreKilled :
    let s : State := { State.reset with resv := [⟨0, 0x0#32⟩] }
    (∃ t, exec (.stb 0 0 0#16) s = .next t) ∧
    ∀ r ∈ s.resv, r.covers s.params.granule (eaOf (.stb 0 0 0#16) s) = true ∧ r.owner = tid s :=
  ⟨exists_next (by decide), by decide⟩

/-- RA = RB and RS = RB, with the third register another one. -/
theorem test_witness_CoincidingRegistersUseOldValues_index :
    (∃ t, exec (.stbux 3 4 4) (withRegs [(4, 0x1000#64)]) = .next t) ∧
    (∃ t, exec (.stbux 4 3 4) (withRegs [(4, 0x1000#64)]) = .next t) :=
  ⟨exists_next (by decide), exists_next (by decide)⟩

theorem test_witness_CoincidingRegistersUseOldValues_all :
    State.reset.cur.pc.toNat + 4 < 2 ^ 32 ∧ ∀ a, a < 2 ^ 32 → State.reset.params.admits a = true := by
  refine ⟨by decide, fun a ha => ?_⟩
  simp [Params.admits, State.reset, Params.reset, Region.contains]
  omega

/-- E19 under `as_snapshot`: EA = 0x1001, and the register clause of `stbux` alike. -/
theorem test_witness_UpdateFormsWithRaZero :
    let s := withPolicy .asSnapshot (withRegs [(3, 0x5A#64), (0, 0x1000#64)])
    s.params.invalidFormPolicy = .asSnapshot ∧
    s.params.admits ((readGpr 0 s + (1#16).signExtend 64).setWidth 32 : Addr).toNat = true ∧
    s.params.admits ((readGpr 0 s + readGpr 3 s).setWidth 32 : Addr).toNat = true ∧ s.cur.pc.toNat + 4 < 2 ^ 32 ∧
    State.reset.params.invalidFormPolicy = .refuse ∧
    exec (.stbu 3 0 1#16) State.reset = .refused .invalidFormRA0 :=
  ⟨by decide, by decide, by decide, by decide, by decide, refused_eq (by decide)⟩

/-- Odd and even addresses at the edges of the window: both outcomes. -/
theorem test_witness_NoStoreFaultsForAlignment :
    let s := admitting 0x1000#32 0x1FFF#32 (withRegs [(4, 0x1FFF#64)])
    exec (.stb 3 4 1#16) s = .fault (.storeNotAdmitted 0x2000#32) ∧ FormRuns (.stb 3 4 0#16) s ∧
    s.params.admits (eaOf (.stb 3 4 0#16) s).toNat = true ∧ s.cur.pc.toNat + 4 < 2 ^ 32 :=
  ⟨fault_eq (by decide), by decide, by decide, by decide⟩

/-- P1's first two stores, over the top of the 32-bit space. -/
theorem test_witness_NextInstructionSeesTheUpdate :
    ∃ t u, exec (.stbu 5 4 1#16) (withRegs [(4, 0xFFFFFFFE#64)]) = .next t ∧ exec (.stbu 6 4 1#16) t = .next u := by
  obtain ⟨t, ht⟩ := exists_next
    (r := exec (.stbu 5 4 1#16) (withRegs [(4, 0xFFFFFFFE#64)])) (by decide)
  obtain ⟨u, hu⟩ := exists_next (r := andThen (exec (.stbu 5 4 1#16) (withRegs [(4, 0xFFFFFFFE#64)]))
    (exec (.stbu 6 4 1#16))) (by decide)
  rw [ht] at hu
  exact ⟨t, u, ht, hu⟩

theorem test_witness_StoringTwiceIsStoringOnce :
    (∃ t u, exec (.stb 5 4 1#16) State.reset = .next t ∧ exec (.stb 5 4 1#16) t = .next u) ∧
    (∃ t u, exec (.stbx 5 4 3) State.reset = .next t ∧ exec (.stbx 5 4 3) t = .next u) := by
  have twice : ∀ (i : Instr), nextOf (fun _ => ()) (exec i State.reset) = some () →
      nextOf (fun _ => ()) (andThen (exec i State.reset) (exec i)) = some () →
      ∃ t u, exec i State.reset = .next t ∧ exec i t = .next u := by
    intro i h1 h2
    obtain ⟨t, ht⟩ := exists_next h1
    obtain ⟨u, hu⟩ := exists_next h2
    rw [ht] at hu
    exact ⟨t, u, ht, hu⟩
  exact ⟨twice _ (by decide) (by decide), twice _ (by decide) (by decide)⟩

theorem test_witness_MemWriteChangesOneByte :
    State.reset.params.admits (0xFFFFFFFF#32).toNat = true ∧ 0x0 ≠ (0xFFFFFFFF#32).toNat ∧
    (admitting 0x1000#32 0x1FFF#32 State.reset).params.admits (0x2000#32).toNat = false := by decide

theorem test_witness_StoredByteInItsBigEndianLane : 3 < 4 ∧ 0 < 4 ∧ 0 ≠ 3 := by decide

/-- A state in the middle of a run: one store made, an instruction placed, a reservation held by thread 1. -/
def midRun : State :=
  placed 0x98640000
    { recordStore 0x2000#32 0x5A#8 (withSecondThread (withRegs [(4, 0x1000#64)])) with resv := [⟨1, 0x1000#32⟩] }

/-- Witness of all invariants with a store behind it; also of MemoryHoldsACoherentFinalByte. -/
theorem midRun_invariants : Invariants midRun ∧ written 0x2000 midRun = true where
  left :=
    { memCanonical := ⟨by decide, by decide⟩
      pcAligned := by unfold PcAligned; decide
      memoryIsCoherent := by
        intro a
        have hm : midRun.mem = midRun.launchMem ++ [(0x2000, 0x5A#8)] := by decide
        have hc : midRun.coherence = [⟨0, 0, 0x2000#32, 0x5A#8⟩] := by decide
        have hl : midRun.launchMem = [(0x100, 0x98#8), (0x101, 0x64#8)] := by decide
        unfold readByte coherentByte lastStore
        rw [hm, hc, hl]
        by_cases ha : a = 0x2000
        · subst ha; decide
        · simp [Memory.read, Ne.symm ha]
      historyCoherent := ⟨by decide, by decide, by decide⟩
      historyAdmitted := by unfold HistoryAdmitted; decide
      resvWellFormed := by unfold ResvWellFormed; decide }
  right := by decide

/-- Witness of the statements about every step from a state that meets an invariant: StepKeepsMemoryCanonical,
StepKeepsPcAligned, StepKeepsHistory, StepKeepsReservations, StepLeavesOtherThreads (thread 1 is not the one that
moves). -/
theorem test_witness_step_from_invariants :
    Invariants midRun ∧ (∃ t, step midRun = .next t) ∧ tid midRun = 0 ∧ (threads midRun).length = 2 :=
  ⟨midRun_invariants.1, exists_next (by decide), by decide, by decide⟩

theorem test_witness_MemoryHoldsACoherentFinalByte : Invariants midRun ∧ written 0x2000 midRun = true :=
  midRun_invariants

/-- One step of the run from a state that meets the invariants. -/
theorem test_witness_RunKeepsInvariants : Invariants midRun ∧ ∃ t, Host.Core.run Sys2Proof.core 1 midRun = .next t :=
  ⟨midRun_invariants.1, exists_next (r := Host.Core.run Sys2Proof.core 1 midRun) (by decide)⟩

/-- A run in which a byte lies outside `Admit`. -/
theorem test_witness_RunLeavesUnadmittedBytes :
    let s := placed 0x98640000 (admitting 0x1000#32 0x1FFF#32 (withRegs [(4, 0x1000#64)]))
    (∃ t, Host.Core.run Sys2Proof.core 1 s = .next t) ∧ s.params.admits 0x2000 = false :=
  ⟨exists_next (r := Host.Core.run Sys2Proof.core 1 _) (by decide), by decide⟩

/-! ### Two threads and one byte (R31, P7) -/

/-- P7 after thread 1's store of 0x22, thread 0 about to store 0x11 to the same byte. -/
def contended : State :=
  let s := withSecondThread (withRegs [(3, 0x11#64), (4, 0x1000#64)])
  { s with
    mem := s.mem.write 0x1000 0x22#8
    history := [⟨1, 0, 0x1000#32, 0x22#8⟩]
    coherence := [⟨1, 0, 0x1000#32, 0x22#8⟩] }

/-- P7: memory ends at 0x11 if thread 1's store is first in the coherence order of the byte, at 0x22 if thread 0's is. -/
theorem test_coherence_P7 :
    nextOf (readByte 0x1000) (mapNext (settleAt 0) (exec (.stb 3 4 0#16) contended)) = some 0x11#8 ∧
    nextOf (readByte 0x1000) (mapNext (settleAt 1) (exec (.stb 3 4 0#16) contended)) = some 0x22#8 := by decide

/-- Both places are admitted to thread 0, only the last to thread 1, whose own store is there. -/
theorem test_witness_SettlingAdmitsEveryCoherentOrder :
    (∃ t, exec (.stb 3 4 0#16) contended = .next t) ∧ tid contended = 0 ∧
    PlaceAdmitted contended 0 0x1000 0 ∧ PlaceAdmitted contended 0 0x1000 1 ∧ ¬PlaceAdmitted contended 1 0x1000 1 :=
  ⟨exists_next (by decide), by decide, by unfold PlaceAdmitted; decide, by unfold PlaceAdmitted; decide,
    by unfold PlaceAdmitted; decide⟩

/-- Another thread's store to another byte leaves nothing to settle. -/
theorem test_witness_SettlingIsNothingWithoutOtherStores :
    (∃ t, exec (.stb 3 4 1#16) contended = .next t) ∧
    ∀ e ∈ contended.coherence, e.addr = eaOf (.stb 3 4 1#16) contended → e.thread = tid contended :=
  ⟨exists_next (by decide), by decide⟩

/-- Thread 0 may still load the launch value, then what thread 1 stored; thread 0 is not thread 1. -/
theorem test_witness_LoadsAreCoherent :
    LoadsReturn contended 0 0x1000 [0x00#8, 0x22#8] ∧ PlaceAdmitted contended 0 0x1000 1 ∧ (0 : Nat) ≤ 1 ∧
    MemoryIsCoherent midRun ∧ (∃ t, exec (.stb 3 4 0#16) contended = .next t) ∧ 1 ≠ tid contended ∧
    (∀ p, 0 < p → p ≤ (storesTo 0x1000 contended).length → byteAt 0x1000 p contended ≠ byteAt 0x1000 0 contended) :=
  ⟨⟨[1, 0], by decide, by decide, by unfold PlaceAdmitted; decide⟩, by unfold PlaceAdmitted; decide, by decide,
    midRun_invariants.1.memoryIsCoherent, exists_next (by decide), by decide, by
      intro p h0 h1
      obtain rfl : p = 1 := by
        have : (storesTo 0x1000 contended).length = 1 := by decide
        omega
      decide⟩

/-! ### A launch state that meets the premises of R82 -/

/-- One instruction, `stb r3, 0(r4)` (P7's word), in `Code` at 0x10000, storing at 0x2000, the one admitted byte. -/
def launched : State :=
  { State.reset with
    cur :=
      { ThreadState.reset with
        x := ThreadState.reset.x.set 4 0x2000#64, pc := 0x10000#32, endPc := some 0x10004#32 }
    mem := [(0x10000, 0x98#8), (0x10001, 0x64#8)]
    launchMem := [(0x10000, 0x98#8), (0x10001, 0x64#8)]
    params := { Params.reset with admitRegions := [⟨0x2000#32, 0x2000#32⟩], code := [⟨0x10000#32, 0x10003#32⟩] } }

/-- The state its run ends in. -/
def launchedDone : State := afterStore (.stb 3 4 0#16) launched

theorem step_launched : step launched = .next launchedDone := rfl
theorem step_launchedDone : step launchedDone = .next launchedDone := rfl

theorem run_launched {n : Nat} {u : State} (h : Host.Core.run Sys2Proof.core n launched = .next u) :
    u = launched ∨ u = launchedDone := by
  refine run_induction (s := launched) (fun u => u = launched ∨ u = launchedDone) (Or.inl rfl) ?_ n u h
  rintro n u t - (rfl | rfl) ht
  · rw [step_launched] at ht; injection ht with ht; exact Or.inr ht.symm
  · rw [step_launchedDone] at ht; injection ht with ht; exact Or.inr ht.symm

/-- The one instruction the run comes to, where it stores. -/
theorem reaches_launched {k : Nat} {i : Instr} {u : State} (h : Reaches launched k i u) :
    (eaOf i u).toNat = 0x2000 := by
  obtain ⟨⟨n, hn⟩, -, hr, hi⟩ := h
  rcases run_launched hn with rfl | rfl
  · have : fetchInstr launched = .ok (.stb 3 4 0#16) := rfl
    rw [this] at hi; injection hi with hi; subst hi; decide
  · have : running launchedDone = false := by decide
    rw [this] at hr; cases hr

/-- The text is the word's four bytes, and its one word. -/
theorem text_launched {th : ThreadState} (h : th ∈ threads launched) {a : Nat} (ha : InText th a) :
    0x10000 ≤ a ∧ a < 0x10004 := by
  obtain rfl : th = launched.cur := by simpa [threads, launched, State.reset] using h
  exact ⟨ha.1, ha.2.2 _ rfl (by decide)⟩

theorem launched_launch : Launch launched where
  pcAligned := by unfold PcAligned; decide
  endAligned := by
    intro t ht a ha
    obtain rfl : t = launched.cur := by simpa [threads, launched, State.reset] using ht
    obtain rfl : 0x10004#32 = a := by simpa [launched] using ha
    decide
  noFault := by decide
  nothingStored := ⟨rfl, rfl⟩
  launchMem := rfl
  memCanonical := ⟨by decide, by decide⟩
  resvWellFormed := ⟨List.nodup_nil, fun _ h => by cases h⟩

theorem test_witness_LaunchPremisesPreventStops : LaunchPremises launched where
  toLaunch := launched_launch
  textInCode := by
    intro th hth a ha
    have := text_launched hth ha
    simp [launched, Region.contains]
    omega
  storesOutsideCode := by intro k i u h; rw [reaches_launched h]; decide
  storesAdmitted := by
    intro k i u h
    rw [reaches_launched h]
    obtain ⟨⟨n, hn⟩, -⟩ := h
    rcases run_launched hn with rfl | rfl <;> decide
  validForms := by
    intro th hth a i h4 ha hd
    obtain ⟨h1, h2⟩ := text_launched hth ha
    obtain rfl : a = 0x10000 := by omega
    have : decodeWord launched.params.rc1Policy (launched.mem.readWordBE 0x10000) = .ok (.stb 3 4 0#16) := by decide
    rw [this] at hd; injection hd with hd; subst hd; rfl
  rcBitsClear := by
    intro th hth a h4 ha
    obtain ⟨h1, h2⟩ := text_launched hth ha
    obtain rfl : a = 0x10000 := by omega
    decide

/-- The machine of one thread in which it stores; the run goes on to its end. -/
theorem test_witness_OneStoringThreadIsExact :
    Launch launched ∧ launched.before = [] ∧ launched.after = [] ∧ OthersNeverStore launched 0 ∧
    (∃ t : State, Host.Core.run Sys2Proof.core 1 launched = .next t ∧ t.history.length = 1) := by
  refine ⟨launched_launch, rfl, rfl, ?_, launchedDone, rfl, by decide⟩
  intro n t h
  rcases run_launched h with rfl | rfl <;> decide

theorem test_witness_ResetState : (Instr.stbux 31 30 29).wellFormed = true := by decide

end Sys2Proof.Tests
end

section
/-!
PROOFS. What a step of a running thread does once its word is decoded (R7, R66, R77), and how it ends in a fault (log 11).
-/

namespace Sys2Proof.Machine

open Sys2Proof.Safety

variable {s : State} {e : Fault}

/-- The one equation of the step: what the decoded instruction answers, concluded. -/
theorem step_of_decoded {w : InstrWord} {i : Instr} (hx : running s = true) (hf : Fetches s w)
    (hd : decodeWord s.params.rc1Policy w = .ok i) : step s = conclude s (exec i s) := by
  simp only [step, hx, if_true, fetchInstr_of_decoded hf hd]

/-- The mover's own mark is set, so it is the other threads that decide whether the machine ends. -/
theorem allFaulted_markFault_iff :
    allFaulted (markFault e s) = true ↔ ∀ th ∈ s.before ++ s.after, th.fault ≠ none := by
  simp [allFaulted, threads, markFault, or_imp, forall_and, Option.isSome_iff_ne_none]

theorem idle_markFault (e : Fault) (s : State) :
    idle (markFault e s) =
      if allFaulted (markFault e s) then .fault e else .next (passTurn (markFault e s)) := rfl

/-- A step that only marks its thread and idles ends in the fault as `StepFaults` says. -/
theorem stepFaults_of_step_eq (h : step s = idle (markFault e s)) : StepFaults s e := by
  rw [idle_markFault] at h
  constructor
  case goesOn =>
    rintro ⟨th, hth, hnone⟩
    have hleft : ¬allFaulted (markFault e s) = true := fun ha => allFaulted_markFault_iff.mp ha th hth hnone
    rw [if_neg hleft] at h
    refine ⟨_, h, threads_passTurn _, ?_⟩
    simp
  case stops =>
    intro hall
    rw [h, if_pos (allFaulted_markFault_iff.mpr hall)]

/-- Settles O9: the step concludes what `exec` answers, and each of the three outcomes has its clause. -/
theorem stepRunsDecodedInstruction : Obligations.StepRunsDecodedInstruction := by
  intro s w i hx hf hd
  have hstep : step s = conclude s (exec i s) := step_of_decoded hx hf hd
  refine ⟨fun t ht => ?next, fun e he => ?fault, fun r hr => ?refused⟩
  case next => rw [hstep, ht]; rfl
  case fault => exact stepFaults_of_step_eq (by rw [hstep, he]; rfl)
  case refused => rw [hstep, hr]; rfl

end Sys2Proof.Machine
end

section
/-!
PROOFS. What a step that answers a next state can have done, and the induction rule for a predicate that every part of a
step keeps; from them what a step leaves of the threads (R13, R77) and of the reservation table (R14).
-/

namespace Sys2Proof.Machine

open Sys2Proof.Safety

variable {s t : State}

/-! ### Inversion of a step -/

theorem eq_passTurn_of_idle (h : idle s = .next t) : t = passTurn s := (idle_eq_next_iff.mp h).1

/-- The turn has passed from one of three states: the one before the step, that state with its thread marked, or the
one an instruction led to, its store settled. -/
theorem step_next_cases (h : step s = .next t) :
    ∃ u, t = passTurn u ∧
      (u = s ∨ (∃ e, u = markFault e s) ∨ ∃ i v, exec i s = .next v ∧ u = settle v) := by
  obtain ⟨-, hidle⟩ | ⟨-, i, -, ⟨v, hv, ht⟩ | ⟨e, -, hidle⟩⟩ := step_eq_next_iff.mp h
  · exact ⟨s, eq_passTurn_of_idle hidle, .inl rfl⟩
  · exact ⟨settle v, ht, .inr (.inr ⟨i, v, hv, rfl⟩)⟩
  · exact ⟨markFault e s, eq_passTurn_of_idle hidle, .inr (.inl ⟨e, rfl⟩)⟩

/-- What every part of a step keeps, the step keeps. -/
theorem step_keeps {P : State → Prop}
    (execKeeps : ∀ i s, P s → s.params.admits (eaOf i s).toNat = true → P (afterStore i s))
    (settleKeeps : ∀ s, P s → P (settle s)) (markKeeps : ∀ e s, P s → P (markFault e s))
    (turnKeeps : ∀ s, P s → P (passTurn s)) (hs : P s) (h : step s = .next t) : P t := by
  obtain ⟨u, rfl, rfl | ⟨e, rfl⟩ | ⟨i, v, hv, rfl⟩⟩ := step_next_cases h
  · exact turnKeeps _ hs
  · exact turnKeeps _ (markKeeps e s hs)
  · obtain ⟨-, hadmit, -, rfl⟩ := exec_eq_next_iff.mp hv
    exact turnKeeps _ (settleKeeps _ (execKeeps i s hs hadmit))

/-- The threads that do not move are those before and after the step's focus, until the turn passes. -/
theorem step_next_others (h : step s = .next t) :
    ∃ u, threads t = threads u ∧ u.before = s.before ∧ u.after = s.after := by
  obtain ⟨u, rfl, hu⟩ := step_next_cases h
  refine ⟨u, threads_passTurn u, ?_⟩
  obtain rfl | ⟨e, rfl⟩ | ⟨i, v, hv, rfl⟩ := hu
  · exact ⟨rfl, rfl⟩
  · exact ⟨rfl, rfl⟩
  · obtain ⟨-, -, -, rfl⟩ := exec_eq_next_iff.mp hv
    simp

/-! ### The threads -/

theorem threads_length_of_others (hb : t.before = s.before) (ha : t.after = s.after) :
    (threads t).length = (threads s).length := by simp [threads, hb, ha]

theorem threads_getElem?_of_others (hb : t.before = s.before) (ha : t.after = s.after) {k : Nat} (hk : k ≠ tid s) :
    (threads t)[k]? = (threads s)[k]? := by
  unfold threads
  rw [hb, ha]
  obtain hlt | hgt := Nat.lt_or_gt_of_ne hk
  · rw [List.getElem?_append_left hlt, List.getElem?_append_left hlt]
  · have hle : s.before.length ≤ k := Nat.le_of_lt hgt
    obtain ⟨j, hj⟩ : ∃ j, k - s.before.length = j + 1 := Nat.exists_eq_add_one.mpr (Nat.sub_pos_of_lt hgt)
    simp only [List.getElem?_append_right hle, hj, List.getElem?_cons_succ]

/-- Settles O47: up to the passing of the turn, only the focus of the list of threads has changed. -/
theorem stepLeavesOtherThreads : Obligations.StepLeavesOtherThreads := by
  intro s t h
  obtain ⟨u, hthreads, hb, ha⟩ := step_next_others h
  rw [hthreads]
  exact ⟨threads_length_of_others hb ha, fun k hk => threads_getElem?_of_others hb ha hk⟩

/-! ### The reservation table -/

/-- A store only takes reservations away (R14). -/
theorem afterStore_resv_sublist (i : Instr) (s : State) : (afterStore i s).resv.Sublist s.resv := by
  rw [afterStore_resv]; exact List.filter_sublist

/-- So does a step: nothing in the spec makes a reservation. -/
theorem step_resv_sublist (h : step s = .next t) : t.resv.Sublist s.resv := by
  obtain ⟨u, rfl, hu⟩ := step_next_cases h
  rw [passTurn_resv]
  obtain rfl | ⟨e, rfl⟩ | ⟨i, v, hv, rfl⟩ := hu
  · exact .refl _
  · exact .refl _
  · obtain ⟨-, -, -, rfl⟩ := exec_eq_next_iff.mp hv
    rw [settle_resv]
    exact afterStore_resv_sublist i s

theorem step_params (h : step s = .next t) : t.params = s.params := by
  obtain ⟨u, rfl, rfl | ⟨e, rfl⟩ | ⟨i, v, hv, rfl⟩⟩ := step_next_cases h
  · simp
  · simp
  · obtain ⟨-, -, -, rfl⟩ := exec_eq_next_iff.mp hv
    simp

theorem step_keeps_resvWellFormed (hs : ResvWellFormed s) (h : step s = .next t) : ResvWellFormed t := by
  obtain ⟨hnodup, hmem⟩ := hs
  have hsub : t.resv.Sublist s.resv := step_resv_sublist h
  refine ⟨hsub.nodup hnodup, fun r hr => ?_⟩
  rw [(stepLeavesOtherThreads s t h).1, step_params h]
  exact hmem r (hsub.subset hr)

/-- Settles O43: a step leaves a sublist of the table, and the threads and the granule as they were. -/
theorem stepKeepsReservations : Obligations.StepKeepsReservations :=
  ⟨fun _ _ => step_keeps_resvWellFormed, fun _ _ h _ hr => (step_resv_sublist h).subset hr⟩

end Sys2Proof.Machine
end

section
/-!
PROOFS. Memory in canonical form and every `pc` a multiple of 4, kept by every step (R12, R20, R24).
-/

namespace Sys2Proof.Machine

open Sys2Proof.Safety

variable {s t : State}

/-! ### Memory in canonical form -/

theorem afterStore_keeps_memCanonical (i : Instr) (hs : MemCanonical s) : MemCanonical (afterStore i s) := by
  obtain ⟨hmem, hlaunch⟩ := hs
  constructor
  · rw [afterStore_mem]; exact Memory.write_wf hmem _ _
  · rw [afterStore_launchMem]; exact hlaunch

theorem settle_of_nil (h : s.coherence = []) : settle s = s := by simp [settle, h]

theorem settle_keeps_memCanonical (hs : MemCanonical s) : MemCanonical (settle s) := by
  obtain ⟨hmem, hlaunch⟩ := hs
  cases hc : s.coherence with
  | nil => rw [settle_of_nil hc]; exact ⟨hmem, hlaunch⟩
  | cons e c =>
    obtain hsame | ⟨j, -, hplaced⟩ := settle_cases hc
    · rw [hsame]; exact ⟨hmem, hlaunch⟩
    · rw [hplaced]; exact ⟨Memory.write_wf hmem _ _, hlaunch⟩

/-- Settles O40: a store and its settling write a byte at a 32-bit address, and nothing else in a step writes memory. -/
theorem stepKeepsMemoryCanonical : Obligations.StepKeepsMemoryCanonical := by
  intro s t hs h
  refine step_keeps (P := MemCanonical) ?exec ?settle ?mark ?turn hs h
  case exec => exact fun i s hs _ => afterStore_keeps_memCanonical i hs
  case settle => exact fun s hs => settle_keeps_memCanonical hs
  case mark => exact fun e s hs => hs
  case turn => exact fun s hs => by simpa [MemCanonical] using hs

/-! ### Every `pc` a multiple of 4 -/

theorem pcAligned_iff :
    PcAligned s ↔ s.cur.pc.toNat % 4 = 0 ∧ ∀ th ∈ s.before ++ s.after, th.pc.toNat % 4 = 0 := by
  simp only [PcAligned, threads, List.forall_mem_append, List.forall_mem_cons]
  exact and_left_comm

theorem toNat_add_four_mod_four (a : Addr) : (a + 4#32).toNat % 4 = a.toNat % 4 := by
  rw [BitVec.toNat_add, BitVec.toNat_ofNat]; omega

theorem afterStore_keeps_pcAligned (i : Instr) (hs : PcAligned s) : PcAligned (afterStore i s) := by
  rw [pcAligned_iff] at hs ⊢
  simpa [toNat_add_four_mod_four] using hs

theorem step_keeps_pcAligned (hs : PcAligned s) (h : step s = .next t) : PcAligned t := by
  refine step_keeps (P := PcAligned) ?exec ?settle ?mark ?turn hs h
  case exec => exact fun i s hs _ => afterStore_keeps_pcAligned i hs
  case settle => exact fun s hs => by rwa [PcAligned, threads_settle]
  case mark => exact fun e s hs => by rw [pcAligned_iff] at hs ⊢; exact hs
  case turn => exact fun s hs => by rwa [PcAligned, threads_passTurn]

end Sys2Proof.Machine
end

section
/-!
PROOFS. The store history and the coherence order, kept by every step (R20, R31; logs 9, 10): what a new store and its
settling do to the byte the order leaves, to program order and to the admitted addresses.
-/

namespace Sys2Proof.Machine

open Sys2Proof.Safety

variable {s t : State} {e f : StoreEvent} {c hist : List StoreEvent}

/-! ### The byte a coherence order leaves -/

@[simp] theorem coherentByte_nil (a : Nat) (launch : Memory) : coherentByte a [] launch = launch.read a := rfl

@[simp] theorem coherentByte_cons_same (launch : Memory) : coherentByte e.addr.toNat (e :: c) launch = e.byte := by
  simp [coherentByte, lastStore]

theorem coherentByte_cons_other {a : Nat} (ha : e.addr.toNat ≠ a) (launch : Memory) :
    coherentByte a (e :: c) launch = coherentByte a c launch := by
  simp [coherentByte, lastStore, ha]

theorem coherentByte_placeStore_other {a : Nat} (ha : e.addr.toNat ≠ a) (k : Nat) (launch : Memory) :
    coherentByte a (placeStore k e c) launch = coherentByte a (e :: c) launch := by
  rw [coherentByte_cons_other ha]
  simp only [coherentByte, lastStore_eq_head, placeStore_filter_other k e c ha]

theorem afterStore_keeps_memoryIsCoherent (i : Instr) (hs : MemoryIsCoherent s) :
    MemoryIsCoherent (afterStore i s) := by
  intro a
  rw [readByte, afterStore_mem, afterStore_coherence, afterStore_launchMem]
  by_cases ha : (eaOf i s).toNat = a
  · subst ha
    rw [Memory.read_write_same]
    exact (coherentByte_cons_same (e := storeEvent (eaOf i s) (storedByte (sourceOf i) s) s) s.launchMem).symm
  · rw [Memory.read_write_other _ _ (Ne.symm ha), coherentByte_cons_other ha]
    exact hs a

theorem settle_keeps_memoryIsCoherent (hs : MemoryIsCoherent s) : MemoryIsCoherent (settle s) := by
  cases hc : s.coherence with
  | nil => rwa [settle_of_nil hc]
  | cons e c =>
    obtain hsame | ⟨j, -, hplaced⟩ := settle_cases hc
    · rwa [hsame]
    · rw [hplaced]
      intro a
      by_cases ha : e.addr.toNat = a
      · subst ha; exact Memory.read_write_same _ _ _
      · calc (s.mem.write e.addr.toNat _).read a
          _ = s.mem.read a := Memory.read_write_other _ _ (Ne.symm ha)
          _ = coherentByte a (e :: c) s.launchMem := hc ▸ hs a
          _ = coherentByte a (placeStore j e c) s.launchMem := (coherentByte_placeStore_other ha j _).symm

theorem step_keeps_memoryIsCoherent (hs : MemoryIsCoherent s) (h : step s = .next t) : MemoryIsCoherent t := by
  refine step_keeps (P := MemoryIsCoherent) ?exec ?settle ?mark ?turn hs h
  case exec => exact fun i s hs _ => afterStore_keeps_memoryIsCoherent i hs
  case settle => exact fun s hs => settle_keeps_memoryIsCoherent hs
  case mark => exact fun e s hs => hs
  case turn => exact fun s hs a => by simpa [readByte] using hs a

/-! ### Program order -/

/-- Two stores of one thread to one byte stand in the coherence order as in the thread's program (R31 (b)). -/
def InProgramOrder (later earlier : StoreEvent) : Prop :=
  later.thread = earlier.thread → later.addr = earlier.addr → earlier.index < later.index

theorem storeCount_cons (k : Nat) :
    storeCount k (e :: hist) = storeCount k hist + if e.thread = k then 1 else 0 := by
  simp [storeCount, List.countP_cons]

theorem indexed_cons : indexed (e :: hist) = true ↔ e.index = storeCount e.thread hist ∧ indexed hist = true := by
  simp [indexed]

/-- The index of an event is below the number of its thread's events, which is the index of the thread's next one. -/
theorem index_lt_storeCount (hindexed : indexed hist = true) (he : e ∈ hist) :
    e.index < storeCount e.thread hist := by
  induction hist with
  | nil => cases he
  | cons f hist ih =>
    obtain ⟨hf, hindexed⟩ := indexed_cons.mp hindexed
    rw [storeCount_cons]
    obtain rfl | he := List.mem_cons.mp he
    · simp [hf]
    · exact Nat.lt_add_right _ (ih hindexed he)

theorem afterStore_keeps_historyCoherent (i : Instr) (hs : HistoryCoherent s) : HistoryCoherent (afterStore i s) := by
  obtain ⟨hindexed, hperm, horder⟩ := hs
  constructor
  case indexed => rw [afterStore_history]; exact indexed_cons.mpr ⟨rfl, hindexed⟩
  case sameStores => rw [afterStore_history, afterStore_coherence]; exact hperm.cons _
  case inProgramOrder =>
    rw [afterStore_coherence]
    refine List.pairwise_cons.mpr ⟨fun x hx hthread _ => ?_, horder⟩
    rw [storeEvent_index, ← storeEvent_thread, hthread]
    exact index_lt_storeCount hindexed (hperm.mem_iff.mp hx)

/-! ### Settling and program order -/

theorem coherenceRoom_cons_same (ha : f.addr = e.addr) (ht : f.thread ≠ e.thread) :
    coherenceRoom e (f :: c) = coherenceRoom e c + 1 := by simp [coherenceRoom, ha, ht]

theorem coherenceRoom_cons_own (ha : f.addr = e.addr) (ht : f.thread = e.thread) :
    coherenceRoom e (f :: c) = 0 := by simp [coherenceRoom, ha, ht]

theorem coherenceRoom_cons_other (ha : f.addr ≠ e.addr) : coherenceRoom e (f :: c) = coherenceRoom e c := by
  simp [coherenceRoom, ha]

/-- A store that there is room for behind `f` and more stands in program order behind `f`, and there is room for it in
what follows `f`. -/
theorem inProgramOrder_of_room {k : Nat} (hk : k ≠ 0) (hroom : k ≤ coherenceRoom e (f :: c)) :
    InProgramOrder f e ∧ (if f.addr == e.addr then k - 1 else k) ≤ coherenceRoom e c := by
  by_cases ha : f.addr = e.addr
  · by_cases ht : f.thread = e.thread
    · rw [coherenceRoom_cons_own ha ht] at hroom; omega
    · rw [coherenceRoom_cons_same ha ht] at hroom
      exact ⟨fun h => absurd h ht, by simp [ha]; omega⟩
  · rw [coherenceRoom_cons_other ha] at hroom
    exact ⟨fun _ h => absurd h ha, by simpa [ha] using hroom⟩

/-- Placing a store where there is room for it keeps program order. -/
theorem placeStore_pairwise {k : Nat} (hroom : k ≤ coherenceRoom e c) (horder : (e :: c).Pairwise InProgramOrder) :
    (placeStore k e c).Pairwise InProgramOrder := by
  induction c generalizing k with
  | nil => exact horder
  | cons f c ih =>
    unfold placeStore
    split
    case isTrue => exact horder
    case isFalse hk =>
      obtain ⟨hfe, hroom⟩ := inProgramOrder_of_room hk hroom
      obtain ⟨he, hfc⟩ := List.pairwise_cons.mp horder
      obtain ⟨hf, hc⟩ := List.pairwise_cons.mp hfc
      refine List.pairwise_cons.mpr ⟨fun x hx => ?_, ih hroom ?_⟩
      · obtain rfl | hx := List.mem_cons.mp ((placeStore_perm _ e c).mem_iff.mp hx)
        · exact hfe
        · exact hf x hx
      · exact List.pairwise_cons.mpr ⟨fun x hx => he x (List.mem_cons_of_mem f hx), hc⟩

theorem settle_keeps_historyCoherent (hs : HistoryCoherent s) : HistoryCoherent (settle s) := by
  cases hc : s.coherence with
  | nil => rwa [settle_of_nil hc]
  | cons e c =>
    obtain hsame | ⟨j, hroom, hplaced⟩ := settle_cases hc
    · rwa [hsame]
    · obtain ⟨hindexed, hperm, horder⟩ := hs
      rw [hc] at hperm horder
      rw [hplaced]
      exact ⟨hindexed, (placeStore_perm j e c).trans hperm, placeStore_pairwise hroom horder⟩

theorem step_keeps_historyCoherent (hs : HistoryCoherent s) (h : step s = .next t) : HistoryCoherent t := by
  refine step_keeps (P := HistoryCoherent) ?exec ?settle ?mark ?turn hs h
  case exec => exact fun i s hs _ => afterStore_keeps_historyCoherent i hs
  case settle => exact fun s hs => settle_keeps_historyCoherent hs
  case mark => exact fun e s hs => ⟨hs.indexed, hs.sameStores, hs.inProgramOrder⟩
  case turn =>
    exact fun s hs => ⟨by simpa using hs.indexed, by simpa using hs.sameStores, by simpa using hs.inProgramOrder⟩

/-! ### Stores inside `Admit` -/

theorem afterStore_keeps_historyAdmitted {i : Instr} (hs : HistoryAdmitted s)
    (hadmit : s.params.admits (eaOf i s).toNat = true) : HistoryAdmitted (afterStore i s) := by
  intro e he
  rw [afterStore_history] at he
  rw [afterStore_params]
  obtain rfl | he := List.mem_cons.mp he
  · exact hadmit
  · exact hs e he

theorem step_keeps_historyAdmitted (hs : HistoryAdmitted s) (h : step s = .next t) : HistoryAdmitted t := by
  refine step_keeps (P := HistoryAdmitted) ?exec ?settle ?mark ?turn hs h
  case exec => exact fun i s hs hadmit => afterStore_keeps_historyAdmitted hs hadmit
  case settle => exact fun s hs => by simpa [HistoryAdmitted] using hs
  case mark => exact fun e s hs => hs
  case turn => exact fun s hs => by simpa [HistoryAdmitted] using hs

end Sys2Proof.Machine
end

section
/-!
PROOFS. All invariants together: launch states and the reset state meet them, and every run keeps them (R19, R82).
-/

namespace Sys2Proof.Machine

open Sys2Proof.Safety

variable {s t : State}

theorem step_keeps_invariants (hs : Invariants s) (h : step s = .next t) : Invariants t where
  memCanonical := stepKeepsMemoryCanonical s t hs.memCanonical h
  pcAligned := step_keeps_pcAligned hs.pcAligned h
  memoryIsCoherent := step_keeps_memoryIsCoherent hs.memoryIsCoherent h
  historyCoherent := step_keeps_historyCoherent hs.historyCoherent h
  historyAdmitted := step_keeps_historyAdmitted hs.historyAdmitted h
  resvWellFormed := step_keeps_resvWellFormed hs.resvWellFormed h

theorem invariants_of_launch (hs : Launch s) : Invariants s := by
  obtain ⟨hhistory, hcoherence⟩ := hs.nothingStored
  exact
    { memCanonical := hs.memCanonical
      pcAligned := hs.pcAligned
      memoryIsCoherent := fun a => by rw [hcoherence, coherentByte_nil, hs.launchMem, readByte]
      historyCoherent := ⟨by rw [hhistory]; rfl, by rw [hhistory, hcoherence], by rw [hcoherence]; exact .nil⟩
      historyAdmitted := fun e he => by rw [hhistory] at he; cases he
      resvWellFormed := hs.resvWellFormed }

theorem mem_threads_reset {th : ThreadState} : th ∈ threads State.reset ↔ th = ThreadState.reset :=
  List.mem_singleton

/-- The one thread starts at 0x100 with no end and no fault; nothing is listed, reserved or stored. -/
theorem launch_reset : Launch State.reset where
  pcAligned := fun th hth => by obtain rfl := mem_threads_reset.mp hth; rfl
  endAligned := fun th hth a ha => by obtain rfl := mem_threads_reset.mp hth; cases ha
  noFault := fun th hth => by obtain rfl := mem_threads_reset.mp hth; rfl
  nothingStored := ⟨rfl, rfl⟩
  launchMem := rfl
  memCanonical := ⟨reset_mem_wf, rfl⟩
  resvWellFormed := ⟨.nil, fun _ hr => by cases hr⟩

/-- Settles O44: the invariants hold at launch, each step keeps each of them, and so does a run of any length. -/
theorem runKeepsInvariants : Obligations.RunKeepsInvariants := by
  refine ⟨fun s hs => invariants_of_launch hs, invariants_of_launch launch_reset, fun n s t hs h => ?_⟩
  exact run_induction Invariants hs (fun _ _ _ _ hu hstep => step_keeps_invariants hu hstep) n t h

/-- Settles O45: reset is a launch state, and launch states meet the invariants. -/
theorem resetMeetsInvariants : Obligations.ResetMeetsInvariants :=
  ⟨launch_reset, invariants_of_launch launch_reset⟩

end Sys2Proof.Machine
end

section
/-!
PROOFS. What an instruction changes of the registers, of `pc` and of memory, and that it neither reads nor writes the
other threads (R10, R11, R13, R16, R17, R20).
-/

namespace Sys2Proof.Machine

open Sys2Proof.Safety

variable {i : Instr} {s t : State}

/-! ### Registers -/

/-- Settles O14: the two reasoning rules of a register write. -/
theorem noRegisterIsHardwired : Obligations.NoRegisterIsHardwired := fun r v s =>
  ⟨readGpr_writeGpr_same r v s, fun _ hr => readGpr_writeGpr_other hr v s⟩

/-! ### The frame -/

/-- The frame of all four instructions: the byte at the address and the register of an update form aside, an
instruction changes only `pc`, reservations and the record of stores. -/
theorem exec_unchanged (h : exec i s = .next t) : Unchanged s t (eaOf i s) (updatedReg i) := by
  obtain ⟨-, -, -, rfl⟩ := exec_eq_next_iff.mp h
  exact
    { regs := fun r hr => readGpr_afterStore_other hr
      named := afterStore_named
      endPc := afterStore_endPc
      fault := afterStore_fault
      before := afterStore_before
      after := afterStore_after
      params := afterStore_params
      launchMem := afterStore_launchMem
      bytes := fun a ha => by rw [readByte, afterStore_mem, Memory.read_write_other _ _ ha, readByte] }

/-- Settles O23: the frame, for forms that update no register. -/
theorem nonUpdateFormsFrame : Obligations.NonUpdateFormsFrame :=
  ⟨fun _ _ _ _ _ h => exec_unchanged h, fun _ _ _ _ _ h => exec_unchanged h⟩

/-- Settles O24: the frame, for forms that update RA. -/
theorem updateFormsFrame : Obligations.UpdateFormsFrame :=
  ⟨fun _ _ _ _ _ h => exec_unchanged h, fun _ _ _ _ _ h => exec_unchanged h⟩

/-! ### `pc` -/

/-- Settles O35: the wrap is the last of the checks, and a next state has passed it. -/
theorem pcNeverWraps : Obligations.PcNeverWraps := by
  refine ⟨fun i s hform hadmit htop => ?refused, fun i s t h => ?next⟩
  case refused => rw [exec_eq, if_neg (not_not.mpr hform), if_neg (by simp [hadmit]), if_pos htop]
  case next =>
    obtain ⟨-, -, hpc, rfl⟩ := exec_eq_next_iff.mp h
    rw [afterStore_pc]
    exact BitVec.toNat_add_of_lt hpc

/-! ### The other threads -/

/-- Replace the threads that do not move. -/
def withOthers (b a : List ThreadState) (s : State) : State := { s with before := b, after := a }

section
variable (b a : List ThreadState) (ea : Addr)

@[simp] theorem withOthers_cur : (withOthers b a s).cur = s.cur := rfl
@[simp] theorem withOthers_params : (withOthers b a s).params = s.params := rfl
@[simp] theorem readGpr_withOthers (r : RegNum) : readGpr r (withOthers b a s) = readGpr r s := rfl
@[simp] theorem storedByte_withOthers (r : RegNum) : storedByte r (withOthers b a s) = storedByte r s := rfl
@[simp] theorem eaOf_withOthers : eaOf i (withOthers b a s) = eaOf i s := by cases i <;> rfl

theorem setPc_withOthers (pc : Addr) : setPc pc (withOthers b a s) = withOthers b a (setPc pc s) := rfl

theorem updateBase_withOthers : updateBase i ea (withOthers b a s) = withOthers b a (updateBase i ea s) := by
  cases i <;> rfl

variable {b a}

/-- The thread's number is all that an instruction reads of the list of threads. -/
theorem tid_withOthers (h : b.length = s.before.length) : tid (withOthers b a s) = tid s := h

theorem resvKill_withOthers (h : b.length = s.before.length) :
    resvKill ea (withOthers b a s) = withOthers b a (resvKill ea s) := by
  simp only [resvKill, tid_withOthers h]; rfl

theorem recordStore_withOthers (h : b.length = s.before.length) (v : Byte) :
    recordStore ea v (withOthers b a s) = withOthers b a (recordStore ea v s) := by
  simp only [recordStore, storeEvent, tid_withOthers h]; rfl

theorem afterStore_withOthers (h : b.length = s.before.length) :
    afterStore i (withOthers b a s) = withOthers b a (afterStore i s) := by
  have h' : b.length = (resvKill (eaOf i s) s).before.length := h
  simp only [afterStore, eaOf_withOthers, storedByte_withOthers, withOthers_cur, resvKill_withOthers _ h,
    recordStore_withOthers _ h', updateBase_withOthers, setPc_withOthers]

theorem exec_withOthers (h : b.length = s.before.length) :
    exec i (withOthers b a s) = mapNext (withOthers b a) (exec i s) := by
  simp only [exec_eq, FormRuns, eaOf_withOthers, withOthers_params, withOthers_cur, afterStore_withOthers h]
  split_ifs <;> rfl

end

/-- Settles O26: of the list of threads an instruction reads only its own number, and writes only its own entry. -/
theorem otherThreadsAreNeitherReadNorWritten : Obligations.OtherThreadsAreNeitherReadNorWritten :=
  fun _ _ _ _ h => exec_withOthers h

end Sys2Proof.Machine
end

section
/-!
PROOFS. Memory, history and `pc` over steps and runs: what a run leaves of the bytes outside `Admit` (R20, R26, R84), and
why the newest store decides the byte where one thread alone stores (R29, R31, R82 (6)).
-/

namespace Sys2Proof.Machine

open Sys2Proof.Safety

variable {s t : State}

/-! ### The invariants of one step -/

/-- Settles O41: an instruction adds 4 to the mover's `pc`, and nothing else in a step touches a `pc`. -/
theorem stepKeepsPcAligned : Obligations.StepKeepsPcAligned := fun _ _ => step_keeps_pcAligned

/-- Settles O42: the three parts, each by its own step lemma. -/
theorem stepKeepsHistory : Obligations.StepKeepsHistory :=
  ⟨fun _ _ => step_keeps_memoryIsCoherent, fun _ _ => step_keeps_historyCoherent,
    fun _ _ => step_keeps_historyAdmitted⟩

/-! ### Bytes outside `Admit` -/

theorem readByte_settle_other {e : StoreEvent} {c : List StoreEvent} (hc : s.coherence = e :: c) {a : Nat}
    (ha : a ≠ e.addr.toNat) : readByte a (settle s) = readByte a s := by
  obtain hsame | ⟨j, -, hplaced⟩ := settle_cases hc
  · rw [hsame]
  · rw [hplaced]; exact Memory.read_write_other _ _ ha

/-- An instruction and the settling of its store write only the byte at its address, and that one is admitted. -/
theorem step_readByte_of_not_admitted {a : Nat} (ha : s.params.admits a = false) (h : step s = .next t) :
    readByte a t = readByte a s := by
  obtain ⟨u, rfl, rfl | ⟨e, rfl⟩ | ⟨i, v, hv, rfl⟩⟩ := step_next_cases h
  · simp [readByte]
  · simp [readByte]
  · have hframe : ∀ a, a ≠ (eaOf i s).toNat → readByte a v = readByte a s := (exec_unchanged hv).bytes
    obtain ⟨-, hadmit, -, rfl⟩ := exec_eq_next_iff.mp hv
    have hne : a ≠ (eaOf i s).toNat := by rintro rfl; simp [ha] at hadmit
    calc readByte a (passTurn (settle (afterStore i s)))
      _ = readByte a (settle (afterStore i s)) := by simp [readByte]
      _ = readByte a (afterStore i s) := readByte_settle_other afterStore_coherence hne
      _ = readByte a s := hframe a hne

/-- Settles O46: by induction on the run, whose every step keeps the parameters that say which bytes are meant. -/
theorem runLeavesUnadmittedBytes : Obligations.RunLeavesUnadmittedBytes := by
  intro n s t h
  refine run_induction (fun u => (∀ a, s.params.admits a = false → readByte a u = readByte a s) ∧
    u.params = s.params ∧ (threads u).length = (threads s).length) ⟨fun _ _ => rfl, rfl, rfl⟩ ?step n t h
  case step =>
    rintro - u v - ⟨hbytes, hparams, hthreads⟩ hstep
    refine ⟨fun a ha => ?_, (step_params hstep).trans hparams, (stepLeavesOtherThreads u v hstep).1.trans hthreads⟩
    exact (step_readByte_of_not_admitted (by rwa [hparams]) hstep).trans (hbytes a ha)

/-! ### One thread that stores -/

/-- The machine has one thread, and it made all stores of the history. -/
def AloneStored (s : State) : Prop := (threads s).length = 1 ∧ ∀ e ∈ s.history, e.thread = 0

theorem tid_lt_threads_length (s : State) : tid s < (threads s).length := by simp [tid, threads]

theorem afterStore_keeps_aloneStored (i : Instr) (hs : AloneStored s) : AloneStored (afterStore i s) := by
  obtain ⟨hone, hstored⟩ := hs
  have htid : tid s = 0 := Nat.lt_one_iff.mp (hone ▸ tid_lt_threads_length s)
  refine ⟨(threads_length_of_others afterStore_before afterStore_after).trans hone, fun e he => ?_⟩
  rw [afterStore_history] at he
  obtain rfl | he := List.mem_cons.mp he
  · exact htid
  · exact hstored e he

theorem step_keeps_aloneStored (hs : AloneStored s) (h : step s = .next t) : AloneStored t := by
  refine step_keeps (P := AloneStored) ?exec ?settle ?mark ?turn hs h
  case exec => exact fun i s hs _ => afterStore_keeps_aloneStored i hs
  case settle => exact fun s hs => by simpa [AloneStored] using hs
  case mark => exact fun e s hs => by simpa [AloneStored, threads] using hs
  case turn => exact fun s hs => by simpa [AloneStored, threads_passTurn] using hs

theorem othersNeverStore_of_one_thread (hs : Launch s) (hbefore : s.before = []) (hafter : s.after = []) :
    OthersNeverStore s 0 := by
  have hstart : AloneStored s := by simp [AloneStored, threads, hbefore, hafter, hs.nothingStored.1]
  intro n t h
  exact (run_induction AloneStored hstart (fun _ _ _ _ hu hstep => step_keeps_aloneStored hu hstep) n t h).2

theorem step_launchMem (h : step s = .next t) : t.launchMem = s.launchMem := by
  obtain ⟨u, rfl, rfl | ⟨e, rfl⟩ | ⟨i, v, hv, rfl⟩⟩ := step_next_cases h
  · simp
  · simp
  · obtain ⟨-, -, -, rfl⟩ := exec_eq_next_iff.mp hv
    simp

theorem run_launchMem {n : Nat} (h : Host.Core.run Sys2Proof.core n s = .next t) : t.launchMem = s.launchMem :=
  run_induction (·.launchMem = s.launchMem) rfl (fun _ _ _ _ hu hstep => (step_launchMem hstep).trans hu) n t h

/-! ### The history as a coherence order -/

/-- The history itself stands in program order: each event's index is above those of its thread before it. -/
theorem indexed_pairwise {hist : List StoreEvent} (h : indexed hist = true) : hist.Pairwise InProgramOrder := by
  induction hist with
  | nil => exact .nil
  | cons e hist ih =>
    obtain ⟨he, h⟩ := indexed_cons.mp h
    refine List.pairwise_cons.mpr ⟨fun f hf hthread _ => ?_, ih h⟩
    rw [he, hthread]
    exact index_lt_storeCount h hf

/-- Where one thread made all stores, program order leaves one coherence order of each byte: that of the history. -/
theorem storesTo_eq_filter_history {k : Nat} (hs : HistoryCoherent s) (hown : ∀ e ∈ s.history, e.thread = k) (a : Nat) :
    storesTo a s = s.history.filter (·.addr.toNat == a) := by
  have hindex : ∀ e f, e ∈ s.history.filter (·.addr.toNat == a) → f ∈ s.history.filter (·.addr.toNat == a) →
      InProgramOrder e f → f.index < e.index := by
    intro e f he hf hef
    simp only [List.mem_filter, beq_iff_eq] at he hf
    obtain ⟨he, hea⟩ := he
    obtain ⟨hf, hfa⟩ := hf
    exact hef ((hown e he).trans (hown f hf).symm) (BitVec.eq_of_toNat_eq (hea.trans hfa.symm))
  have hperm : (storesTo a s).Perm (s.history.filter (·.addr.toNat == a)) := hs.sameStores.filter _
  refine hperm.eq_of_pairwise (le := InProgramOrder) (fun e f he hf hef hfe => ?_)
    (hs.inProgramOrder.filter _) ((indexed_pairwise hs.indexed).filter _)
  have he := hperm.mem_iff.mp he
  exact absurd (hindex e f he hf hef) (Nat.lt_asymm (hindex f e hf he hfe))

/-- The byte a coherence order leaves depends on the order of its byte alone. -/
theorem coherentByte_congr {a : Nat} {c d : List StoreEvent}
    (h : c.filter (·.addr.toNat == a) = d.filter (·.addr.toNat == a)) (launch : Memory) :
    coherentByte a c launch = coherentByte a d launch := by
  simp only [coherentByte, lastStore_eq_head, h]

/-- Settles O57: one thread alone is its own storer by induction on the run; and the invariants of the run, with all
stores one thread's, make the history the coherence order that memory follows. -/
theorem oneStoringThreadIsExact : Obligations.OneStoringThreadIsExact := by
  refine ⟨fun s hs hbefore hafter => othersNeverStore_of_one_thread hs hbefore hafter, ?_⟩
  intro s k hs hown n t h a
  have hinv : Invariants t := runKeepsInvariants.2.2 n s t (invariants_of_launch hs) h
  calc readByte a t
    _ = coherentByte a t.coherence t.launchMem := hinv.memoryIsCoherent a
    _ = coherentByte a t.history t.launchMem :=
      coherentByte_congr (storesTo_eq_filter_history hinv.historyCoherent (hown n t h) a) _
    _ = coherentByte a t.history s.mem := by rw [run_launchMem h, hs.launchMem]

end Sys2Proof.Machine
end

section
/-!
PROOFS. Bytes of memory, as a write, a fetch and an instruction see them: lanes of a word (R21, R22), writes (R20, R27),
the checks of the fetch on its bytes (R33, R70), and what an instruction stores and records (R23, R31, R33).
-/

namespace Sys2Proof.Machine

open Sys2Proof.Safety

variable {i : Instr} {s t u : State}

/-! ### The lanes of a big-endian word -/

/-- The byte at offset `j` is lane `j` of the word, counted from the most significant byte. -/
theorem readWordBE_lane (m : Memory) (a : Nat) {j : Nat} (hj : j < 4) :
    (m.readWordBE a).extractLsb' (24 - 8 * j) 8 = m.read (a + j) := by
  show (m.read a ++ m.read (a + 1) ++ m.read (a + 2) ++ m.read (a + 3)).extractLsb' (24 - 8 * j) 8 = m.read (a + j)
  match j, hj with
  | 0, _ | 1, _ | 2, _ | 3, _ =>
    -- `Nat.reduceAdd` would fold the word's width, which the rules for `++` read as a sum.
    simp (disch := decide) [BitVec.extractLsb'_append_eq_of_le, BitVec.extractLsb'_append_eq_of_add_le,
      -Nat.reduceAdd]

/-- Settles O39: lane `j` is the byte at `4q + j`, which a write sets and no other write touches. -/
theorem storedByteInItsBigEndianLane : Obligations.StoredByteInItsBigEndianLane := by
  intro m q j v hj
  refine ⟨?written, fun k hk hkj => ?others⟩
  case written => rw [readWordBE_lane _ _ hj, Memory.read_write_same]
  case others =>
    have hne : 4 * q + k ≠ 4 * q + j := fun h => hkj (Nat.add_left_cancel h)
    rw [readWordBE_lane _ _ hk, readWordBE_lane _ _ hk, Memory.read_write_other _ _ hne]

/-! ### The fetch -/

theorem fetchWord_of_not_fetchable (hpc : s.cur.pc.toNat % 4 = 0)
    (hbyte : ∃ a ∈ fetchAddrs s, s.params.fetchable a = false) : fetchWord s = .error .fetchNotAdmitted := by
  rw [fetchWord, if_neg (not_not.mpr hpc), if_pos (by simpa using hbyte)]

theorem fetchWord_of_written (hpc : s.cur.pc.toNat % 4 = 0) (hfetch : ∀ a ∈ fetchAddrs s, s.params.fetchable a = true)
    (hbyte : ∃ a ∈ fetchAddrs s, written a s = true) : fetchWord s = .error .fetchOfWrittenCode := by
  rw [fetchWord, if_neg (not_not.mpr hpc), if_neg (by simpa using hfetch), if_pos (by simpa using hbyte)]

/-- Settles O8: the word is the big-endian read at `pc`, whose lanes are the four bytes; the second of the fetch's
checks refuses. -/
theorem fetchIsBigEndian : Obligations.FetchIsBigEndian := by
  refine ⟨fun s hpc hfetch hwritten => ?reads, fun s hrun hpc hbyte => ?refused, by decide⟩
  case reads =>
    exact ⟨_, fetchWord_eq_ok_iff.mpr ⟨hpc, hfetch, hwritten, rfl⟩,
      readWordBE_lane _ _ (j := 0) (by decide), readWordBE_lane _ _ (j := 1) (by decide),
      readWordBE_lane _ _ (j := 2) (by decide), readWordBE_lane _ _ (j := 3) (by decide)⟩
  case refused => exact step_of_fetchWord_error hrun (fetchWord_of_not_fetchable hpc hbyte)

/-! ### The record of stores -/

/-- Settles O30: the event is put in front of both lists. -/
theorem everyStoreIsRecorded : Obligations.EveryStoreIsRecorded := by
  intro i s t h
  obtain ⟨-, -, -, rfl⟩ := exec_eq_next_iff.mp h
  exact ⟨afterStore_history, afterStore_coherence⟩

theorem written_afterStore_iff {a : Nat} :
    written a (afterStore i s) = true ↔ a = (eaOf i s).toNat ∨ written a s = true := by
  simp [written, @eq_comm _ a]

/-- Settles O11: the addresses of the history are empty at launch, an instruction adds its own, and the third of the
fetch's checks refuses. -/
theorem fetchOfWrittenCodeIsRefused : Obligations.FetchOfWrittenCodeIsRefused := by
  refine ⟨fun s hs a => ?launch, fun i s t h a => ?grows, fun s hrun hpc hfetch hbyte => ?refused⟩
  case launch => rw [written, hs.nothingStored.1]; rfl
  case grows =>
    obtain ⟨-, -, -, rfl⟩ := exec_eq_next_iff.mp h
    exact written_afterStore_iff
  case refused => exact step_of_fetchWord_error hrun (fetchWord_of_written hpc hfetch hbyte)

/-! ### One byte a store -/

/-- Settles O38: by the two equations of `memWrite` and the two rules of a memory write. -/
theorem memWriteChangesOneByte : Obligations.MemWriteChangesOneByte := by
  refine fun ea v s => ⟨fun hadmit => ?_, fun hadmit => memWrite_of_not_admitted hadmit v⟩
  exact ⟨_, memWrite_of_admitted hadmit v, Memory.read_write_same _ _ _, fun a ha => Memory.read_write_other _ _ ha⟩

/-- The one fault of an instruction, and what it says of the address. -/
theorem exec_eq_fault {e : Fault} (h : exec i s = .fault e) :
    e = .storeNotAdmitted (eaOf i s) ∧ s.params.admits (eaOf i s).toNat = false := by
  rw [exec_eq] at h
  split_ifs at h with hform hadmit
  injection h with h
  exact ⟨h.symm, hadmit⟩

/-- Settles O34: the only fault is that of the address, and the frame has one byte. -/
theorem noStoreFaultsForAlignment : Obligations.NoStoreFaultsForAlignment := by
  refine ⟨fun i s e h => exec_eq_fault h, fun i s hform hadmit hpc => ?_⟩
  have h : exec i s = .next (afterStore i s) := exec_eq_next_iff.mpr ⟨hform, hadmit, hpc, rfl⟩
  exact ⟨_, h, (exec_unchanged h).bytes⟩

/-! ### The same store twice -/

theorem Memory.forget_forget (m : Memory) (a : Nat) : (m.forget a).forget a = m.forget a := by
  simp [Memory.forget]

/-- Forgetting an address undoes entering a byte there. -/
theorem Memory.forget_enter (m : Memory) (a : Nat) (b : Byte) : (m.enter a b).forget a = m.forget a := by
  induction m with
  | nil => simp [Memory.enter, Memory.forget]
  | cons c m ih =>
    obtain ⟨k, v⟩ := c
    unfold Memory.enter
    split
    · simp only [Memory.forget, List.filter_cons] at ih ⊢; rw [ih]
    · simp [Memory.forget]

theorem Memory.forget_write (m : Memory) (a : Nat) (b : Byte) : (m.write a b).forget a = m.forget a := by
  unfold Memory.write
  split
  · exact Memory.forget_forget m a
  · rw [Memory.forget_enter, Memory.forget_forget]

/-- Of two writes at one address the second is what memory holds, as data. -/
theorem Memory.write_write (m : Memory) (a : Nat) (b b' : Byte) : (m.write a b).write a b' = m.write a b' := by
  rw [Memory.write, Memory.forget_write, Memory.write]

/-- The effective address depends on the registers alone. -/
theorem eaOf_congr (h : ∀ r, readGpr r t = readGpr r s) (i : Instr) : eaOf i t = eaOf i s := by
  cases i <;> simp only [eaOf, eaStb, eaStbu, eaStbx, eaStbux, base0, h]

/-- A form that updates no register stores the same byte at the same address again. -/
theorem exec_twice_mem (hform : updatedReg i = none) (ht : exec i s = .next t) (hu : exec i t = .next u) :
    u.mem = t.mem := by
  have hregs : ∀ r, readGpr r t = readGpr r s := fun r => (exec_unchanged ht).regs r (by simp [hform])
  obtain ⟨-, -, -, htmem⟩ := exec_eq_next_iff.mp ht
  obtain ⟨-, -, -, rfl⟩ := exec_eq_next_iff.mp hu
  have hbyte : storedByte (sourceOf i) t = storedByte (sourceOf i) s := by rw [storedByte, hregs, storedByte]
  rw [afterStore_mem, eaOf_congr hregs, hbyte, htmem, afterStore_mem, Memory.write_write]

/-- Settles O37: the two forms that update no register. -/
theorem storingTwiceIsStoringOnce : Obligations.StoringTwiceIsStoringOnce :=
  ⟨fun _ _ _ _ _ _ => exec_twice_mem rfl, fun _ _ _ _ _ _ => exec_twice_mem rfl⟩

end Sys2Proof.Machine
end

section
/-!
PROOFS. The coherence order of one byte (R29, R31): the byte memory holds, the places a new store may take, and what a
load may return (logs 9, 26).
-/

namespace Sys2Proof.Machine

open Sys2Proof.Safety

variable {s t : State} {a k p q : Nat} {b : Byte} {e : StoreEvent} {c after before : List StoreEvent}

/-! ### The stores to a byte, and the bytes of their order -/

theorem mem_storesTo : e ∈ storesTo a s ↔ e ∈ s.coherence ∧ e.addr.toNat = a := by
  simp [storesTo]

theorem storesTo_of_cons (h : s.coherence = e :: c) (ha : e.addr.toNat = a) :
    storesTo a s = e :: c.filter (·.addr.toNat == a) := by
  simp [storesTo, h, ha]

theorem byteAt_of_getElem? (h : (storesTo a s)[p]? = some e) : byteAt a p s = e.byte := by
  simp [byteAt, h]

theorem byteAt_of_getElem?_none (h : (storesTo a s)[p]? = none) : byteAt a p s = s.launchMem.read a := by
  simp [byteAt, h]

theorem byteAt_congr (hlaunch : t.launchMem = s.launchMem) (h : (storesTo a t)[p]? = (storesTo a s)[q]?) :
    byteAt a p t = byteAt a q s := by
  simp only [byteAt, h, hlaunch]

/-- What a coherence order leaves at a byte is the byte at its place 0. -/
theorem coherentByte_eq_byteAt_zero (a : Nat) (s : State) :
    coherentByte a s.coherence s.launchMem = byteAt a 0 s := by
  have hlast : lastStore a s.coherence = (storesTo a s)[0]? := by
    rw [lastStore_eq_head, List.head?_eq_getElem?, storesTo]
  cases h : (storesTo a s)[0]? with
  | none => simp [coherentByte, hlast, byteAt_of_getElem?_none, h]
  | some e => simp [coherentByte, hlast, byteAt_of_getElem? h, h]

/-! ### The byte memory holds -/

theorem written_eq_storesTo (hs : HistoryCoherent s) (a : Nat) : written a s = !(storesTo a s).isEmpty := by
  rw [written, ← hs.sameStores.any_eq, storesTo, Bool.eq_iff_iff]
  simp

/-- The first store of a byte's order is its thread's last one to it. -/
theorem coherentFinal_of_storesTo (hs : HistoryCoherent s) {rest : List StoreEvent} (h : storesTo a s = e :: rest) :
    CoherentFinal s a e.byte := by
  have hmem : ∀ x, x ∈ e :: rest ↔ x ∈ s.history ∧ x.addr.toNat = a := fun x => by
    rw [← h, mem_storesTo, hs.sameStores.mem_iff]
  have horder : (e :: rest).Pairwise InProgramOrder := h ▸ hs.inProgramOrder.filter _
  obtain ⟨hhist, haddr⟩ := (hmem e).mp List.mem_cons_self
  refine ⟨e, hhist, haddr, rfl, fun f hf hfa hthread => ?_⟩
  obtain rfl | hrest := List.mem_cons.mp ((hmem f).mpr ⟨hf, hfa⟩)
  · exact le_rfl
  · exact (List.rel_of_pairwise_cons horder hrest hthread.symm
      (BitVec.eq_of_toNat_eq (haddr.trans hfa.symm))).le

/-- Settles O49: memory holds the byte at place 0 of the order, a store's where the byte is written. -/
theorem memoryHoldsACoherentFinalByte : Obligations.MemoryHoldsACoherentFinalByte := by
  intro s hs a
  have hbyte : readByte a s = byteAt a 0 s := (hs.memoryIsCoherent a).trans (coherentByte_eq_byteAt_zero a s)
  rw [hbyte, written_eq_storesTo hs.historyCoherent]
  cases h : storesTo a s with
  | nil => exact ⟨nofun, fun _ => byteAt_of_getElem?_none (by simp [h])⟩
  | cons e rest =>
    refine ⟨fun _ => ?_, nofun⟩
    rw [byteAt_of_getElem? (e := e) (by simp [h])]
    exact coherentFinal_of_storesTo hs.historyCoherent h

/-! ### The places a store may take -/

theorem le_length_takeWhile_iff {α : Type} (f : α → Bool) (l : List α) (k : Nat) :
    k ≤ (l.takeWhile f).length ↔ k ≤ l.length ∧ ∀ x ∈ l.take k, f x = true := by
  induction l generalizing k with
  | nil => simp
  | cons x l ih =>
    cases k with
    | zero => simp
    | succ k => cases hx : f x <;> simp [hx, ih]

/-- The places R31 (b) admits are those that there is room for. -/
theorem placeAdmitted_iff_le_room (e : StoreEvent) (s : State) (k : Nat) :
    PlaceAdmitted s e.thread e.addr.toNat k ↔ k ≤ coherenceRoom e s.coherence := by
  simp only [coherenceRoom, le_length_takeWhile_iff, addr_beq_eq, bne_iff_ne, PlaceAdmitted, storesTo]

theorem placeAdmitted_mono (h : PlaceAdmitted s k a p) (hq : q ≤ p) : PlaceAdmitted s k a q := by
  obtain ⟨hlen, hothers⟩ := h
  exact ⟨hq.trans hlen, fun x hx => hothers x (List.take_subset_take_left _ hq hx)⟩

theorem placeAdmitted_zero (s : State) (k a : Nat) : PlaceAdmitted s k a 0 := ⟨Nat.zero_le _, by simp⟩

/-- A thread's own last store to the byte ends the places it may look behind. -/
theorem placeAdmitted_own_iff (h : storesTo a s = after ++ e :: before) (hothers : ∀ x ∈ after, x.thread ≠ e.thread) :
    PlaceAdmitted s e.thread a p ↔ p ≤ after.length := by
  rw [PlaceAdmitted, h]
  constructor
  · rintro ⟨-, hp⟩
    by_contra hlt
    obtain ⟨m, hm⟩ : ∃ m, p - after.length = m + 1 := ⟨p - after.length - 1, by omega⟩
    exact hp e (by simp [List.take_append, hm]) rfl
  · intro hp
    refine ⟨by simp; omega, fun x hx => hothers x ?_⟩
    rw [List.take_append_of_le_length hp] at hx
    exact List.mem_of_mem_take hx

/-! ### Settling a store -/

theorem filter_placeStore_same (k : Nat) (e : StoreEvent) (c : List StoreEvent) :
    (placeStore k e c).filter (·.addr.toNat == e.addr.toNat) =
      (c.filter (·.addr.toNat == e.addr.toNat)).take k ++ e :: (c.filter (·.addr.toNat == e.addr.toNat)).drop k := by
  simpa only [addr_beq_eq] using placeStore_filter_same k e c

theorem storesTo_settleAt_same (h : s.coherence = e :: c) (k : Nat) :
    storesTo e.addr.toNat (settleAt k s) =
      (c.filter (·.addr.toNat == e.addr.toNat)).take k ++ e :: (c.filter (·.addr.toNat == e.addr.toNat)).drop k := by
  rw [settleAt_of_cons h]; exact filter_placeStore_same k e c

theorem storesTo_settleAt_other (h : s.coherence = e :: c) (ha : a ≠ e.addr.toNat) (k : Nat) :
    storesTo a (settleAt k s) = c.filter (·.addr.toNat == a) := by
  rw [settleAt_of_cons h]; exact placeStore_filter_other k e c ha.symm

theorem readByte_settleAt_same (h : s.coherence = e :: c) (k : Nat) :
    readByte e.addr.toNat (settleAt k s) = byteAt e.addr.toNat 0 (settleAt k s) := by
  rw [← coherentByte_eq_byteAt_zero, settleAt_of_cons h]
  exact Memory.read_write_same _ _ _

theorem readByte_settleAt_other (h : s.coherence = e :: c) (ha : a ≠ e.addr.toNat) (k : Nat) :
    readByte a (settleAt k s) = readByte a s := by
  rw [settleAt_of_cons h]; exact Memory.read_write_other _ _ ha

/-- Settling puts the newest store at some place there is room for. -/
theorem exists_storesTo_settle (h : s.coherence = e :: c) :
    ∃ j, j ≤ coherenceRoom e c ∧ storesTo e.addr.toNat (settle s) =
      (c.filter (·.addr.toNat == e.addr.toNat)).take j ++ e :: (c.filter (·.addr.toNat == e.addr.toNat)).drop j := by
  obtain hsame | ⟨j, hroom, hplaced⟩ := settle_cases h
  · exact ⟨0, Nat.zero_le _, by rw [hsame, storesTo_of_cons h rfl]; rfl⟩
  · exact ⟨j, hroom, by rw [hplaced]; exact filter_placeStore_same j e c⟩

end Sys2Proof.Machine
end

section
/-!
PROOFS. A store and its settling, and the loads that may see it: what R31 (b) leaves open after an instruction (log 9)
and what R31 (c) lets a load of the byte return (log 26).
-/

namespace Sys2Proof.Machine

open Sys2Proof.Safety

variable {i : Instr} {s t : State} {a k p q : Nat} {b : Byte} {e : StoreEvent} {after before : List StoreEvent}

/-! ### The store of an instruction -/

/-- The event of the store that instruction `i` makes in state `s` (R31). -/
def newStore (i : Instr) (s : State) : StoreEvent := storeEvent (eaOf i s) (storedByte (sourceOf i) s) s

theorem coherence_of_exec (h : exec i s = .next t) : t.coherence = newStore i s :: s.coherence := by
  obtain ⟨-, -, -, rfl⟩ := exec_eq_next_iff.mp h
  exact afterStore_coherence

theorem launchMem_of_exec (h : exec i s = .next t) : t.launchMem = s.launchMem := (exec_unchanged h).launchMem

theorem storesTo_of_exec (h : exec i s = .next t) :
    storesTo (eaOf i s).toNat t = newStore i s :: storesTo (eaOf i s).toNat s :=
  storesTo_of_cons (coherence_of_exec h) rfl

/-! ### Where it may be settled -/

/-- What stands first once `e` is put behind `k` others. -/
theorem getElem?_zero_take_cons_drop {l : List StoreEvent} (hk : k ≤ l.length) (e : StoreEvent) :
    (l.take k ++ e :: l.drop k)[0]? = if k = 0 then some e else l[0]? := by
  cases k with
  | zero => rfl
  | succ k =>
    cases l with
    | nil => simp at hk
    | cons f l => rfl

/-- At each admitted place the store stands there in the order of its byte, and memory follows the order. -/
theorem settleAt_of_exec (h : exec i s = .next t) {j : Nat} (hj : PlaceAdmitted s (tid s) (eaOf i s).toNat j) :
    storesTo (eaOf i s).toNat (settleAt j t) =
      (storesTo (eaOf i s).toNat s).take j ++ newStore i s :: (storesTo (eaOf i s).toNat s).drop j ∧
    readByte (eaOf i s).toNat (settleAt j t) =
      if j = 0 then (newStore i s).byte else byteAt (eaOf i s).toNat 0 s := by
  have hc : t.coherence = newStore i s :: s.coherence := coherence_of_exec h
  have horder : storesTo (eaOf i s).toNat (settleAt j t) =
      (storesTo (eaOf i s).toNat s).take j ++ newStore i s :: (storesTo (eaOf i s).toNat s).drop j :=
    storesTo_settleAt_same hc j
  have hfirst := getElem?_zero_take_cons_drop hj.1 (newStore i s)
  rw [← horder] at hfirst
  refine ⟨horder, (readByte_settleAt_same hc j).trans ?_⟩
  split_ifs at hfirst ⊢ with h0
  · exact byteAt_of_getElem? hfirst
  · exact byteAt_congr (by rw [settleAt_launchMem, launchMem_of_exec h]) hfirst

theorem settleAt_of_exec_other (h : exec i s = .next t) (j : Nat) (ha : a ≠ (eaOf i s).toNat) :
    storesTo a (settleAt j t) = storesTo a s ∧ readByte a (settleAt j t) = readByte a s :=
  have hc : t.coherence = newStore i s :: s.coherence := coherence_of_exec h
  ⟨storesTo_settleAt_other hc ha j, (readByte_settleAt_other hc ha j).trans ((exec_unchanged h).bytes a ha)⟩

/-- Settles O53: the bound is the room of the new store. -/
theorem settlingAdmitsEveryCoherentOrder : Obligations.SettlingAdmitsEveryCoherentOrder := by
  intro i s t h
  refine ⟨fun j hj => ?place, coherenceRoom (newStore i s) s.coherence, ?bound, ?settled⟩
  case place =>
    obtain ⟨horder, hbyte⟩ := settleAt_of_exec h hj
    exact ⟨horder, hbyte, fun a ha => settleAt_of_exec_other h j ha⟩
  case bound => exact placeAdmitted_iff_le_room (newStore i s) s
  case settled => exact settle_of_cons (coherence_of_exec h)

/-- Settles O54: behind a store of the thread's own there is no place, and without any store there is none to take. -/
theorem settlingIsNothingWithoutOtherStores : Obligations.SettlingIsNothingWithoutOtherStores := by
  intro i s t h hown
  have hroom : coherenceRoom (newStore i s) s.coherence = 0 := by
    by_contra hne
    obtain ⟨hlen, hothers⟩ := (placeAdmitted_iff_le_room (newStore i s) s 1).mpr (Nat.one_le_iff_ne_zero.mpr hne)
    cases hl : storesTo (newStore i s).addr.toNat s with
    | nil => simp [hl] at hlen
    | cons f l =>
      obtain ⟨hf, hfa⟩ := mem_storesTo.mp (hl ▸ List.mem_cons_self : f ∈ storesTo (newStore i s).addr.toNat s)
      exact hothers f (by simp [hl]) (hown f hf (BitVec.eq_of_toNat_eq hfa))
  rw [settle_of_cons (coherence_of_exec h), if_pos hroom]

/-! ### Loads -/

theorem loadsReturn_singleton_iff :
    LoadsReturn s k a [b] ↔ ∃ p, PlaceAdmitted s k a p ∧ b = byteAt a p s := by
  constructor
  · rintro ⟨ps, hps, -, hplaces⟩
    obtain ⟨p, rfl, hp⟩ := List.map_eq_singleton_iff.mp hps.symm
    exact ⟨p, hplaces p List.mem_cons_self, hp.symm⟩
  · rintro ⟨p, hp, rfl⟩
    exact ⟨[p], rfl, List.pairwise_singleton _ _, by simpa using hp⟩

theorem loadsReturn_pair_iff {b' : Byte} :
    LoadsReturn s k a [b, b'] ↔
      ∃ p q, PlaceAdmitted s k a p ∧ q ≤ p ∧ b = byteAt a p s ∧ b' = byteAt a q s := by
  constructor
  · rintro ⟨ps, hps, horder, hplaces⟩
    obtain ⟨p, ps, rfl, hp, hps⟩ := List.map_eq_cons_iff.mp hps.symm
    obtain ⟨q, rfl, hq⟩ := List.map_eq_singleton_iff.mp hps
    exact ⟨p, q, hplaces p List.mem_cons_self, List.rel_of_pairwise_cons horder List.mem_cons_self, hp.symm, hq.symm⟩
  · rintro ⟨p, q, hp, hq, rfl, rfl⟩
    exact ⟨[p, q], rfl, by simpa using hq, by simpa using ⟨hp, placeAdmitted_mono hp hq⟩⟩

/-- A byte of the order is the launch value or a recorded store's. -/
theorem byteAt_cases (a p : Nat) (s : State) :
    byteAt a p s = s.launchMem.read a ∨ ∃ e ∈ s.coherence, e.addr.toNat = a ∧ e.byte = byteAt a p s := by
  cases h : (storesTo a s)[p]? with
  | none => exact .inl (byteAt_of_getElem?_none h)
  | some e =>
    obtain ⟨he, ha⟩ := mem_storesTo.mp (List.mem_of_getElem? h)
    exact .inr ⟨e, he, ha, (byteAt_of_getElem? h).symm⟩

/-- A thread loads the byte of its own last store, or of a store that another thread has placed after it. -/
theorem loadsReturn_own_iff (h : storesTo a s = after ++ e :: before) (hothers : ∀ x ∈ after, x.thread ≠ e.thread) :
    LoadsReturn s e.thread a [b] ↔ b = e.byte ∨ ∃ x ∈ after, x.byte = b := by
  have hlast : (storesTo a s)[after.length]? = some e := by simp [h]
  have hbyte {p : Nat} (hp : p < after.length) : byteAt a p s = after[p].byte :=
    byteAt_of_getElem? (by rw [h, List.getElem?_append_left hp, List.getElem?_eq_getElem hp])
  simp only [loadsReturn_singleton_iff, placeAdmitted_own_iff h hothers]
  constructor
  · rintro ⟨p, hp, rfl⟩
    obtain rfl | hp := Nat.eq_or_lt_of_le hp
    · exact .inl (byteAt_of_getElem? hlast)
    · exact .inr ⟨after[p], List.getElem_mem hp, (hbyte hp).symm⟩
  · rintro (rfl | ⟨x, hx, rfl⟩)
    · exact ⟨after.length, le_rfl, (byteAt_of_getElem? hlast).symm⟩
    · obtain ⟨p, hp, rfl⟩ := List.mem_iff_getElem.mp hx
      exact ⟨p, hp.le, (hbyte hp).symm⟩

/-- A new store stands before what another thread could load, and takes nothing of it away. -/
theorem loadsReturn_of_exec (h : exec i s = .next t) (hk : k ≠ tid s) (hload : LoadsReturn s k (eaOf i s).toNat [b]) :
    LoadsReturn t k (eaOf i s).toNat [b] := by
  have horder := storesTo_of_exec h
  obtain ⟨p, ⟨hlen, hothers⟩, rfl⟩ := loadsReturn_singleton_iff.mp hload
  refine loadsReturn_singleton_iff.mpr ⟨p + 1, ⟨?_, ?_⟩, ?_⟩
  · simpa [horder] using hlen
  · rw [horder, List.take_succ_cons, List.forall_mem_cons]
    exact ⟨Ne.symm hk, hothers⟩
  · exact byteAt_congr (launchMem_of_exec h).symm (by simp [horder])

/-- The order of the byte once the place is settled. -/
theorem storesTo_settle_of_exec (h : exec i s = .next t) :
    ∃ after before, storesTo (eaOf i s).toNat s = after ++ before ∧
      storesTo (eaOf i s).toNat (settle t) = after ++ newStore i s :: before ∧ ∀ x ∈ after, x.thread ≠ tid s := by
  obtain ⟨j, hj, horder⟩ := exists_storesTo_settle (coherence_of_exec h)
  exact ⟨_, _, (List.take_append_drop j _).symm, horder, ((placeAdmitted_iff_le_room (newStore i s) s j).mpr hj).2⟩

/-- Settles O55: each clause by the places the relation admits; of a thread that has just stored, those up to its own
store. -/
theorem loadsAreCoherent : Obligations.LoadsAreCoherent := by
  refine ⟨fun s k a bs => ?recorded, fun s hs k a => ?memory, fun i s t h => ⟨fun b => ?own, ?others, ?settled⟩,
    fun s k a p q hp hq => ?forward, fun s k a b hdistinct hload => ?notBack⟩
  case recorded =>
    rintro ⟨ps, rfl, -, -⟩ b hb
    obtain ⟨p, -, rfl⟩ := List.mem_map.mp hb
    exact byteAt_cases a p s
  case memory =>
    refine loadsReturn_singleton_iff.mpr ⟨0, placeAdmitted_zero s k a, ?_⟩
    exact (hs a).trans (coherentByte_eq_byteAt_zero a s)
  case own =>
    have hload := loadsReturn_own_iff (b := b) (after := []) (storesTo_of_exec h) nofun
    exact hload.trans (or_iff_left (by simp))
  case others => exact fun k hk b => loadsReturn_of_exec h hk
  case settled =>
    obtain ⟨after, before, hbefore, hsettled, hothers⟩ := storesTo_settle_of_exec h
    exact ⟨after, before, newStore i s, rfl, hbefore, hsettled, hothers, fun b => loadsReturn_own_iff hsettled hothers⟩
  case forward => exact loadsReturn_pair_iff.mpr ⟨p, q, hp, hq, rfl, rfl⟩
  case notBack =>
    obtain ⟨p, q, ⟨hlen, -⟩, hq, hbyte, rfl⟩ := loadsReturn_pair_iff.mp hload
    obtain rfl : p = 0 := by
      by_contra hp
      exact hdistinct p (Nat.pos_of_ne_zero hp) hlen hbyte.symm
    rw [Nat.le_zero.mp hq]

end Sys2Proof.Machine
end

section
/-!
PROOFS. Fields as quotients and remainders of the word, and a word as the sum of its fields (R38).
-/

namespace Sys2Proof

/-- Placing `y` below `x` adds it to `x` times the weight of its width. -/
theorem toNat_append_eq_add {m n : Nat} (x : BitVec m) (y : BitVec n) :
    (x ++ y).toNat = x.toNat * 2 ^ n + y.toNat := by
  rw [BitVec.toNat_append, ← Nat.shiftLeft_add_eq_or_of_lt y.isLt, Nat.shiftLeft_eq]

/-- The bits from `lo` up are the quotient by the weight of bit `lo`, cut to the field's width. -/
theorem toNat_extractLsb'_eq_div_mod {n : Nat} (lo len : Nat) (w : BitVec n) :
    (w.extractLsb' lo len).toNat = w.toNat / 2 ^ lo % 2 ^ len := by
  rw [BitVec.extractLsb'_toNat, Nat.shiftRight_eq_div_pow]

section
variable (w : InstrWord)

theorem toNat_opcdField : (opcdField w).toNat = w.toNat / 2 ^ 26 % 2 ^ 6 := toNat_extractLsb'_eq_div_mod 26 6 w
theorem val_rsField : (rsField w).val = w.toNat / 2 ^ 21 % 2 ^ 5 := toNat_extractLsb'_eq_div_mod 21 5 w
theorem val_raField : (raField w).val = w.toNat / 2 ^ 16 % 2 ^ 5 := toNat_extractLsb'_eq_div_mod 16 5 w
theorem val_rbField : (rbField w).val = w.toNat / 2 ^ 11 % 2 ^ 5 := toNat_extractLsb'_eq_div_mod 11 5 w
theorem toNat_xoField : (xoField w).toNat = w.toNat / 2 % 2 ^ 10 := toNat_extractLsb'_eq_div_mod 1 10 w

theorem toNat_rcField : (rcField w).toNat = w.toNat % 2 := by
  rw [rcField, toNat_extractLsb'_eq_div_mod, Nat.pow_zero, Nat.div_one, Nat.pow_one]

theorem toNat_dField : (dField w).toNat = w.toNat % 2 ^ 16 := by
  rw [dField, toNat_extractLsb'_eq_div_mod, Nat.pow_zero, Nat.div_one]

end

section
variable (o : BitVec 6) (xo : BitVec 10) (rs ra rb : RegNum) (d : Disp)

theorem toNat_regField (r : RegNum) : (regField r).toNat = r.val := rfl

theorem toNat_encodeD :
    (encodeD o rs ra d).toNat = o.toNat * 2 ^ 26 + rs.val * 2 ^ 21 + ra.val * 2 ^ 16 + d.toNat := by
  simp only [encodeD, toNat_append_eq_add, toNat_regField]
  omega

/-- The X form with the Rc bit `rc`; `encodeX` is the one with `rc` clear. -/
def wordX (rc : BitVec 1) : InstrWord := 31#6 ++ regField rs ++ regField ra ++ regField rb ++ xo ++ rc

theorem encodeX_eq_wordX : encodeX xo rs ra rb = wordX xo rs ra rb 0#1 := rfl

theorem encodeX_or_one : encodeX xo rs ra rb ||| 1#32 = wordX xo rs ra rb 1#1 := by
  have hone : 1#32 = 0#31 ++ 1#1 := rfl
  rw [hone]
  exact BitVec.or_append.trans (by rw [BitVec.or_zero, BitVec.zero_or]; rfl)

theorem toNat_wordX (rc : BitVec 1) :
    (wordX xo rs ra rb rc).toNat =
      31 * 2 ^ 26 + rs.val * 2 ^ 21 + ra.val * 2 ^ 16 + rb.val * 2 ^ 11 + xo.toNat * 2 + rc.toNat := by
  simp only [wordX, toNat_append_eq_add, toNat_regField, BitVec.toNat_ofNat]
  omega

end

/-- Settles O5: each field is a quotient and remainder, each word a sum of weighted fields. -/
theorem fieldsAreArithmetic : Obligations.FieldsAreArithmetic := by
  refine ⟨fun w => ?extraction, fun o rs ra d => toNat_encodeD o rs ra d, fun xo rs ra rb => ⟨?rcClear, ?rcSet⟩⟩
  case extraction =>
    exact ⟨toNat_opcdField w, val_rsField w, val_raField w, val_rbField w, toNat_xoField w, toNat_rcField w,
      toNat_dField w⟩
  case rcClear => rw [encodeX_eq_wordX, toNat_wordX]; rfl
  case rcSet => rw [encodeX_or_one, toNat_wordX]; rfl

/-! ### A word is made of its fields -/

theorem encodeD_fields (w : InstrWord) : encodeD (opcdField w) (rsField w) (raField w) (dField w) = w := by
  apply BitVec.eq_of_toNat_eq
  rw [toNat_encodeD, toNat_opcdField, val_rsField, val_raField, toNat_dField]
  have hw := w.isLt
  omega

theorem encodeX_fields {w : InstrWord} (hopcd : opcdField w = 31#6) (hrc : rcField w = 0#1) :
    encodeX (xoField w) (rsField w) (raField w) (rbField w) = w := by
  have hopcd' := congrArg BitVec.toNat hopcd
  have hrc' := congrArg BitVec.toNat hrc
  rw [toNat_opcdField, BitVec.toNat_ofNat] at hopcd'
  rw [toNat_rcField, BitVec.toNat_ofNat] at hrc'
  apply BitVec.eq_of_toNat_eq
  rw [encodeX_eq_wordX, toNat_wordX, toNat_xoField, val_rsField, val_raField, val_rbField, BitVec.toNat_ofNat]
  have hw := w.isLt
  omega

end Sys2Proof
end

section
/-!
PROOFS. What the decoder answers, said once for each of its answers, and from that the two directions of the round trip,
the opcode map and the rejected words (R42 to R45).
-/

namespace Sys2Proof

variable {p : Rc1Policy} {w : InstrWord} {i : Instr}

/-! ### The decoder's answers (R43) -/

/-- The policy lets an X-form word through: its Rc bit is clear, or the bit is ignored (R44). -/
def RcAccepted (p : Rc1Policy) (w : InstrWord) : Prop := ¬(rcField w = 1#1 ∧ p = .refuse)

theorem rcAccepted_refuse_iff : RcAccepted .refuse w ↔ rcField w = 0#1 := by
  obtain h | h := BitVec.eq_zero_or_eq_one (rcField w) <;> simp [RcAccepted, h]

theorem not_rcAccepted_refuse_iff : ¬RcAccepted .refuse w ↔ rcField w = 1#1 := by simp [RcAccepted]

theorem rcAccepted_of_clear (h : rcField w = 0#1) : RcAccepted p w := by simp [RcAccepted, h]

theorem rcAccepted_ignoreBit : RcAccepted .ignoreBit w := nofun

theorem decodeRc_eq_ok_iff {j : Instr} : decodeRc p w j = .ok i ↔ RcAccepted p w ∧ i = j := by
  unfold decodeRc RcAccepted
  split_ifs with h <;> simp [h, @eq_comm _ i]

theorem decodeRc_eq_error_iff {e : Reject} : decodeRc p w i = .error e ↔ ¬RcAccepted p w ∧ e = .reservedRcBit := by
  unfold decodeRc RcAccepted
  split_ifs with h <;> simp [h, @eq_comm _ e]

/-- The words that decode, row by row of the table. -/
theorem decodeWord_eq_ok_iff :
    decodeWord p w = .ok i ↔
      (opcdField w = 38#6 ∧ i = .stb (rsField w) (raField w) (dField w)) ∨
      (opcdField w = 39#6 ∧ i = .stbu (rsField w) (raField w) (dField w)) ∨
      (opcdField w = 31#6 ∧ xoField w = 215#10 ∧ RcAccepted p w ∧ i = .stbx (rsField w) (raField w) (rbField w)) ∨
      (opcdField w = 31#6 ∧ xoField w = 247#10 ∧ RcAccepted p w ∧ i = .stbux (rsField w) (raField w) (rbField w)) := by
  unfold decodeWord
  split_ifs with hstb hstbu hx hstbx hstbux
  · simp [hstb, eq_comm]
  · simp [hstbu, eq_comm]
  · simp [hx, hstbx, decodeRc_eq_ok_iff]
  · simp [hx, hstbux, decodeRc_eq_ok_iff]
  · simp [hx, hstbx, hstbux]
  · simp [hstb, hstbu, hx]

/-- The reserved words (R44). -/
theorem decodeWord_eq_reservedRcBit_iff :
    decodeWord p w = .error .reservedRcBit ↔
      opcdField w = 31#6 ∧ (xoField w = 215#10 ∨ xoField w = 247#10) ∧ ¬RcAccepted p w := by
  unfold decodeWord
  split_ifs with hstb hstbu hx hstbx hstbux
  · simp [hstb]
  · simp [hstbu]
  · simp [hx, hstbx, decodeRc_eq_error_iff]
  · simp [hx, hstbux, decodeRc_eq_error_iff]
  · simp [hstbx, hstbux]
  · simp [hx]

/-- The words of no row, whatever their Rc bit (R45). -/
theorem decodeWord_eq_notInSpec_iff {v : InstrWord} :
    decodeWord p w = .error (.notInSpec v) ↔
      v = w ∧ opcdField w ≠ 38#6 ∧ opcdField w ≠ 39#6 ∧
        ¬(opcdField w = 31#6 ∧ xoField w = 215#10) ∧ ¬(opcdField w = 31#6 ∧ xoField w = 247#10) := by
  unfold decodeWord
  split_ifs with hstb hstbu hx hstbx hstbux
  · simp [hstb]
  · simp [hstbu]
  · simp [hx, hstbx, decodeRc_eq_error_iff]
  · simp [hx, hstbux, decodeRc_eq_error_iff]
  · simp [hx, hstbx, hstbux, eq_comm]
  · simp [hstb, hstbu, hx, eq_comm]

/-! ### The round trip -/

/-- Settles O2: the fields of an encoded word are its operands, and its opcode fields name its row. -/
theorem encodeThenDecode : Obligations.EncodeThenDecode := by
  intro p i
  rw [decodeWord_eq_ok_iff]
  cases i with
  | stb rs ra d => simp [encode]
  | stbu rs ra d => simp [encode]
  | stbx rs ra rb => simp [encode, rcAccepted_of_clear]
  | stbux rs ra rb => simp [encode, rcAccepted_of_clear]

/-- Settles O3: a word is made of its fields, and by its row of those the instruction keeps and of constants. -/
theorem decodeThenEncode : Obligations.DecodeThenEncode := by
  intro w i h
  rw [decodeWord_eq_ok_iff, rcAccepted_refuse_iff] at h
  obtain ⟨hopcd, rfl⟩ | ⟨hopcd, rfl⟩ | ⟨hopcd, hxo, hrc, rfl⟩ | ⟨hopcd, hxo, hrc, rfl⟩ := h
  case inl | inr.inl => simpa only [encode, ← hopcd] using encodeD_fields w
  case inr.inr.inl | inr.inr.inr => simpa only [encode, ← hxo] using encodeX_fields hopcd hrc

/-! ### The masks of the four rows (R42) -/

theorem and_stbMask_iff : w &&& 0xFC000000#32 = 0x98000000#32 ↔ opcdField w = 38#6 := and_opcdMask_iff w 38#6

theorem and_stbuMask_iff : w &&& 0xFC000000#32 = 0x9C000000#32 ↔ opcdField w = 39#6 := and_opcdMask_iff w 39#6

theorem and_stbxMask_iff :
    w &&& 0xFC0007FF#32 = 0x7C0001AE#32 ↔ opcdField w = 31#6 ∧ xoField w = 215#10 ∧ rcField w = 0#1 :=
  and_fullMask_iff w 31#6 215#10 0#1

theorem and_stbuxMask_iff :
    w &&& 0xFC0007FF#32 = 0x7C0001EE#32 ↔ opcdField w = 31#6 ∧ xoField w = 247#10 ∧ rcField w = 0#1 :=
  and_fullMask_iff w 31#6 247#10 0#1

theorem and_stbxMask_ignoreBit_iff :
    w &&& 0xFC0007FE#32 = 0x7C0001AE#32 ↔ opcdField w = 31#6 ∧ xoField w = 215#10 := and_xoMask_iff w 31#6 215#10

theorem and_stbuxMask_ignoreBit_iff :
    w &&& 0xFC0007FE#32 = 0x7C0001EE#32 ↔ opcdField w = 31#6 ∧ xoField w = 247#10 := and_xoMask_iff w 31#6 247#10

/-- The X-form rows with the Rc bit set (R44). -/
theorem and_reservedMask_iff :
    (w &&& 0xFC0007FF#32 = 0x7C0001AF#32 ∨ w &&& 0xFC0007FF#32 = 0x7C0001EF#32) ↔
      opcdField w = 31#6 ∧ (xoField w = 215#10 ∨ xoField w = 247#10) ∧ rcField w = 1#1 := by
  have hstbx : w &&& 0xFC0007FF#32 = 0x7C0001AF#32 ↔ _ := and_fullMask_iff w 31#6 215#10 1#1
  have hstbux : w &&& 0xFC0007FF#32 = 0x7C0001EF#32 ↔ _ := and_fullMask_iff w 31#6 247#10 1#1
  rw [hstbx, hstbux, or_and_right, and_or_left]

/-- Settles O4: a row decodes by its opcode fields, which are what its mask looks at. -/
theorem matchAndMaskSelect : Obligations.MatchAndMaskSelect := by
  refine ⟨fun w => ?rows, by decide⟩
  rw [and_stbMask_iff, and_stbuMask_iff, and_stbxMask_iff, and_stbuxMask_iff, and_stbxMask_ignoreBit_iff,
    and_stbuxMask_ignoreBit_iff]
  simp [decodeWord_eq_ok_iff, rcAccepted_refuse_iff, rcAccepted_ignoreBit]

/-! ### Reserved words (R44) -/

section
variable (w : InstrWord)

/-- A field above the Rc bit does not see it cleared. -/
theorem extractLsb'_clearRc {lo len : Nat} (h : (0xFFFFFFFE#32).extractLsb' lo len = BitVec.allOnes len) :
    (w &&& 0xFFFFFFFE#32).extractLsb' lo len = w.extractLsb' lo len := by
  rw [BitVec.extractLsb'_and, h, BitVec.and_allOnes]

theorem opcdField_clearRc : opcdField (w &&& 0xFFFFFFFE#32) = opcdField w := extractLsb'_clearRc w (by decide)
theorem xoField_clearRc : xoField (w &&& 0xFFFFFFFE#32) = xoField w := extractLsb'_clearRc w (by decide)

theorem rsField_clearRc : rsField (w &&& 0xFFFFFFFE#32) = rsField w :=
  congrArg BitVec.toFin (extractLsb'_clearRc w (by decide))

theorem raField_clearRc : raField (w &&& 0xFFFFFFFE#32) = raField w :=
  congrArg BitVec.toFin (extractLsb'_clearRc w (by decide))

theorem rbField_clearRc : rbField (w &&& 0xFFFFFFFE#32) = rbField w :=
  congrArg BitVec.toFin (extractLsb'_clearRc w (by decide))

theorem rcField_clearRc : rcField (w &&& 0xFFFFFFFE#32) = 0#1 := by
  have hmask : (0xFFFFFFFE#32).extractLsb' 0 1 = 0#1 := by decide
  rw [rcField, BitVec.extractLsb'_and, hmask, BitVec.and_zero]

end

/-- An X-form word decodes with its Rc bit ignored as it does with the bit cleared. -/
theorem decodeWord_ignoreBit_iff_clearRc (hopcd : opcdField w = 31#6) :
    decodeWord .ignoreBit w = .ok i ↔ decodeWord .refuse (w &&& 0xFFFFFFFE#32) = .ok i := by
  simp [decodeWord_eq_ok_iff, hopcd, rcAccepted_ignoreBit, rcAccepted_of_clear, opcdField_clearRc, xoField_clearRc,
    rsField_clearRc, raField_clearRc, rbField_clearRc, rcField_clearRc]

theorem exists_decodeWord_ignoreBit (hopcd : opcdField w = 31#6) (hxo : xoField w = 215#10 ∨ xoField w = 247#10) :
    ∃ i, decodeWord .ignoreBit w = .ok i := by
  simp only [decodeWord_eq_ok_iff]
  obtain hxo | hxo := hxo
  · exact ⟨_, .inr (.inr (.inl ⟨hopcd, hxo, rcAccepted_ignoreBit, rfl⟩))⟩
  · exact ⟨_, .inr (.inr (.inr ⟨hopcd, hxo, rcAccepted_ignoreBit, rfl⟩))⟩

theorem decodeWord_refuse_eq_reservedRcBit_iff :
    decodeWord .refuse w = .error .reservedRcBit ↔
      (w &&& 0xFC0007FF#32 = 0x7C0001AF#32 ∨ w &&& 0xFC0007FF#32 = 0x7C0001EF#32) := by
  rw [decodeWord_eq_reservedRcBit_iff, not_rcAccepted_refuse_iff, and_reservedMask_iff]

namespace Machine

open Sys2Proof.Safety

/-- A step that fetches a rejected word is refused by name. -/
theorem step_of_rejected {s : State} {e : Reject} (hrun : running s = true) (hf : Fetches s w)
    (hd : decodeWord s.params.rc1Policy w = .error e) : step s = .refused (refusalOf e) := by
  simp only [step, hrun, if_true, fetchInstr_of_rejected hf hd]

end Machine

/-- Settles O6: the mask with the Rc bit set names the reserved words, and only that bit differs from a row. -/
theorem setRcBitIsReserved : Obligations.SetRcBitIsReserved := by
  refine ⟨fun w => decodeWord_refuse_eq_reservedRcBit_iff, fun w hmask => ?ignored, fun s w hrun hf hpolicy hmask =>
    ?step⟩
  case ignored =>
    obtain ⟨hopcd, hxo, -⟩ := and_reservedMask_iff.mp hmask
    obtain ⟨i, hi⟩ := exists_decodeWord_ignoreBit hopcd hxo
    exact ⟨i, hi, (decodeWord_ignoreBit_iff_clearRc hopcd).mp hi⟩
  case step =>
    refine Machine.step_of_rejected (e := .reservedRcBit) hrun hf ?_
    rw [hpolicy]
    exact decodeWord_refuse_eq_reservedRcBit_iff.mpr hmask

/-! ### Words of no row (R45) -/

theorem decodeWord_eq_notInSpec_iff_masks :
    decodeWord p w = .error (.notInSpec w) ↔
      (w &&& 0xFC000000#32 ≠ 0x98000000#32 ∧ w &&& 0xFC000000#32 ≠ 0x9C000000#32 ∧
        w &&& 0xFC0007FE#32 ≠ 0x7C0001AE#32 ∧ w &&& 0xFC0007FE#32 ≠ 0x7C0001EE#32) := by
  simp only [decodeWord_eq_notInSpec_iff, true_and, ne_eq, and_stbMask_iff, and_stbuMask_iff,
    and_stbxMask_ignoreBit_iff, and_stbuxMask_ignoreBit_iff]

/-- Settles O7: no row's mask matches exactly when no row's opcode fields do. -/
theorem otherWordsAreNotInSpec : Obligations.OtherWordsAreNotInSpec := by
  refine ⟨fun p w => decodeWord_eq_notInSpec_iff_masks, fun s w hrun hf hstb hstbu hstbx hstbux => ?step, ?neighbours⟩
  case step =>
    exact Machine.step_of_rejected hrun hf (decodeWord_eq_notInSpec_iff_masks.mpr ⟨hstb, hstbu, hstbx, hstbux⟩)
  case neighbours => simp [decodeWord_eq_notInSpec_iff_masks]

end Sys2Proof
end

section
/-!
PROOFS. The operands as the fields give them, and the form that is invalid: the displacement (R39), RA = 0 as the
literal zero (R41) and RA = 0 in an update form (R46).
-/

namespace Sys2Proof.Machine

open Sys2Proof.Safety

variable {i : Instr} {s t : State}

/-! ### The displacement (R39) -/

theorem toInt_dispValue (d : Disp) : (dispValue d).toInt = d.toInt := BitVec.toInt_signExtend_of_le (by decide)

/-- Settles O15: sign extension keeps the signed value, whose range is that of 16 bits. -/
theorem displacementIsSignExtended : Obligations.DisplacementIsSignExtended :=
  ⟨fun d => ⟨toInt_dispValue d, BitVec.le_toInt d, BitVec.toInt_le⟩, by decide⟩

/-! ### RA = 0 as the literal zero (R41) -/

@[simp] theorem base0_zero (s : State) : base0 0 s = 0#64 := rfl

theorem base0_of_ne_zero {ra : RegNum} (h : ra ≠ 0) (s : State) : base0 ra s = readGpr ra s := if_neg h

@[simp] theorem effAddr_zero_left (b : Word) : effAddr 0#64 b = b.setWidth 32 := by rw [effAddr, BitVec.zero_add]

/-- Settles O16: the base is 0 for field 0 and the register for any other. -/
theorem raZeroIsLiteralZero : Obligations.RaZeroIsLiteralZero := by
  refine ⟨fun rs d s => ?_, fun rs rb s => ?_, fun rs ra d s hra => ?_, fun rs ra rb s hra => ?_⟩
  · exact effAddr_zero_left _
  · exact effAddr_zero_left _
  · rw [eaOf, eaStb, base0_of_ne_zero hra, effAddr, dispValue]
  · rw [eaOf, eaStbx, base0_of_ne_zero hra, effAddr]

/-! ### The whole effect of an instruction (R54) -/

theorem resvKilled_afterStore (i : Instr) (s : State) : ResvKilled s (afterStore i s) (eaOf i s) where
  others r howner := by simp [survivesStore_iff, howner]
  elsewhere r hgranule := by simp [survivesStore_iff, hgranule]
  noneMade r hr := by
    rw [afterStore_resv] at hr
    exact List.mem_of_mem_filter hr

/-- What an instruction that completes has done, in full. -/
theorem exec_storeEffect (h : exec i s = .next t) :
    StoreEffect s t (eaOf i s) (storedByte (sourceOf i) s) (updatedReg i) := by
  obtain ⟨-, -, -, rfl⟩ := exec_eq_next_iff.mp h
  exact
    { exec_unchanged h with
      resv := resvKilled_afterStore i s
      byte := by rw [readByte, afterStore_mem, Memory.read_write_same]
      updated := fun r hr => readGpr_afterStore_updated hr
      pc := afterStore_pc }

/-- An instruction that passes its checks completes, with its whole effect. -/
theorem exists_exec_storeEffect (hform : FormRuns i s) (hadmit : s.params.admits (eaOf i s).toNat = true)
    (hpc : s.cur.pc.toNat + 4 < 2 ^ 32) :
    ∃ t, exec i s = .next t ∧ StoreEffect s t (eaOf i s) (storedByte (sourceOf i) s) (updatedReg i) :=
  have h : exec i s = .next (afterStore i s) := exec_eq_next_iff.mpr ⟨hform, hadmit, hpc, rfl⟩
  ⟨_, h, exec_storeEffect h⟩

/-! ### RA = 0 in an update form (R46) -/

/-- An instruction is refused for its form exactly where its form does not run. -/
theorem exec_eq_invalidFormRA0_iff : exec i s = .refused .invalidFormRA0 ↔ ¬FormRuns i s := by
  rw [exec_eq]
  split_ifs with hform <;> simp [hform]

/-- The invalid forms, and no other: the update forms with RA = 0. -/
theorem wellFormed_eq_false_iff :
    i.wellFormed = false ↔ (∃ rs d, i = .stbu rs 0 d) ∨ ∃ rs rb, i = .stbux rs 0 rb := by
  cases i <;> simp [Instr.wellFormed]

theorem not_formRuns_iff : ¬FormRuns i s ↔ i.wellFormed = false ∧ s.params.invalidFormPolicy = .refuse := by
  cases h : s.params.invalidFormPolicy <;> simp [FormRuns, h]

/-- Settles O32: only an update form with RA = 0 is invalid, and under `as_snapshot` every form runs. -/
theorem updateFormsWithRaZero : Obligations.UpdateFormsWithRaZero := by
  refine ⟨fun rs rb d s hpolicy => ?refused, fun rs d s hpolicy hadmit hpc => ?stbu,
    fun rs rb s hpolicy hadmit hpc => ?stbux, fun i s h => ?only⟩
  case refused =>
    simp only [exec_eq_invalidFormRA0_iff, not_formRuns_iff]
    exact ⟨⟨rfl, hpolicy⟩, rfl, hpolicy⟩
  case stbu => exact exists_exec_storeEffect (i := .stbu rs 0 d) (.inr hpolicy) hadmit hpc
  case stbux => exact exists_exec_storeEffect (i := .stbux rs 0 rb) (.inr hpolicy) hadmit hpc
  case only => exact wellFormed_eq_false_iff.mp (not_formRuns_iff.mp (exec_eq_invalidFormRA0_iff.mp h)).1

end Sys2Proof.Machine
end

section
/-!
PROOFS. The address, the stored byte, the updated register and the reservations of an instruction that completes (R50 to
R53, R61), and that the registers the spec only names play no part (R59).
-/

namespace Sys2Proof.Machine

open Sys2Proof.Safety

variable {i : Instr} {s t : State}

/-! ### The effective address (R50, R61) -/

theorem toNat_effAddr (a b : Word) : (effAddr a b).toNat = (a.toNat + b.toNat) % 2 ^ 64 % 2 ^ 32 := by
  rw [effAddr, BitVec.toNat_setWidth, BitVec.toNat_add]

/-- Truncation commutes with addition, so the high halves never matter. -/
theorem effAddr_eq_add_setWidth (a b : Word) : effAddr a b = a.setWidth 32 + b.setWidth 32 :=
  BitVec.setWidth_add a b (by decide)

/-- Settles O17: by the two readings of the sum, and each instruction's row as the model has it. -/
theorem effectiveAddressIsTruncatedSum : Obligations.EffectiveAddressIsTruncatedSum :=
  ⟨fun a b => ⟨toNat_effAddr a b, effAddr_eq_add_setWidth a b⟩, fun _ _ _ _ => ⟨rfl, rfl⟩,
    fun _ _ _ _ => ⟨rfl, rfl⟩⟩

/-- Settles O18: seven rows of constants, each evaluated. -/
theorem wrapAroundTable : Obligations.WrapAroundTable := by
  intro row hrow
  fin_cases hrow <;> exact ⟨rfl, rfl⟩

/-! ### The stored byte (R51) -/

/-- Settles O27: of the whole effect, the byte, which is read in the state before. -/
theorem storedByteIsLowByteOfSource : Obligations.StoredByteIsLowByteOfSource := by
  intro i s t h
  have hbyte : readByte (eaOf i s).toNat t = (readGpr (sourceOf i) s).setWidth 8 := (exec_storeEffect h).byte
  exact ⟨hbyte, by rw [hbyte, BitVec.toNat_setWidth]⟩

/-! ### The updated register (R52) -/

theorem toNat_updateValue (ea : Addr) : (updateValue ea).toNat = ea.toNat := BitVec.toNat_setWidth_of_le (by decide)

theorem updateValue_high_eq_zero (ea : Addr) : (updateValue ea).extractLsb' 32 32 = 0#32 := by
  apply BitVec.eq_of_toNat_eq
  rw [toNat_extractLsb'_eq_div_mod, toNat_updateValue, Nat.div_eq_of_lt ea.isLt]
  rfl

/-- Settles O28: of the whole effect, the update, and what zero extension leaves in each half. -/
theorem updateWritesZeroExtendedAddress : Obligations.UpdateWritesZeroExtendedAddress := by
  intro i ra s t hra h
  have hupdated : readGpr ra t = updateValue (eaOf i s) := (exec_storeEffect h).updated ra hra
  exact ⟨hupdated, by rw [hupdated, toNat_updateValue], by rw [hupdated, updateValue_high_eq_zero]⟩

/-! ### Reservations (R53) -/

/-- A reservation that is left on the granule is the storing thread's own: another's would be on another granule. -/
theorem owner_of_covers {ea : Addr} {r : Reservation} (h : ResvKilled s t ea) (hr : r ∈ t.resv)
    (hcovers : r.covers s.params.granule ea = true) : r.owner = tid s := by
  by_contra howner
  obtain ⟨-, helsewhere⟩ := (h.others r howner).mp hr
  exact Bool.false_ne_true (helsewhere.symm.trans hcovers)

/-- Settles O29: of the whole effect, the reservations; `resvKill` touches nothing else. -/
theorem reservationsOnTheGranuleAreKilled : Obligations.ReservationsOnTheGranuleAreKilled := by
  intro i s t h
  have hkilled : ResvKilled s t (eaOf i s) := (exec_storeEffect h).resv
  exact ⟨hkilled, fun r hr hcovers => owner_of_covers hkilled hr hcovers, resvKill_cur .., resvKill_mem ..⟩

/-! ### The registers the spec only names (R59) -/

section
variable (n : NamedRegs)

@[simp] theorem eaOf_withNamed : eaOf i (withNamed n s) = eaOf i s := by cases i <;> rfl

theorem afterStore_withNamed : afterStore i (withNamed n s) = withNamed n (afterStore i s) := by cases i <;> rfl

theorem exec_withNamed : exec i (withNamed n s) = mapNext (withNamed n) (exec i s) := by
  simp only [exec_eq, FormRuns, eaOf_withNamed, withNamed_params, withNamed_pc, afterStore_withNamed]
  split_ifs <;> rfl

end

/-- Settles O25: no check of an instruction reads those registers, and its next state carries them along. -/
theorem flagsAreNeitherReadNorWritten : Obligations.FlagsAreNeitherReadNorWritten := fun _ n _ => exec_withNamed n

end Sys2Proof.Machine
end

section
/-!
PROOFS. The meaning of each of the four instructions in full (R55 to R58): its word, its effect and its other outcomes;
and the same register in two of its fields (R60).
-/

namespace Sys2Proof

/-! ### The words -/

theorem opcdField_or_one (w : InstrWord) : opcdField (w ||| 1#32) = opcdField w := by
  have hbits : (1#32).extractLsb' 26 6 = 0#6 := by decide
  rw [opcdField, BitVec.extractLsb'_or, hbits, BitVec.or_zero, opcdField]

theorem xoField_or_one (w : InstrWord) : xoField (w ||| 1#32) = xoField w := by
  have hbits : (1#32).extractLsb' 1 10 = 0#10 := by decide
  rw [xoField, BitVec.extractLsb'_or, hbits, BitVec.or_zero, xoField]

theorem rcField_or_one (w : InstrWord) : rcField (w ||| 1#32) = 1#1 := by
  have hbits : (1#32).extractLsb' 0 1 = BitVec.allOnes 1 := by decide
  rw [rcField, BitVec.extractLsb'_or, hbits, BitVec.or_allOnes]
  rfl

section
variable (rs ra rb : RegNum)

/-- The word of an X form is its base word, OPCD and XO, plus its weighted register fields. -/
theorem toNat_encodeX (xo : BitVec 10) :
    (encodeX xo rs ra rb).toNat = 31 * 2 ^ 26 + xo.toNat * 2 + rs.val * 2 ^ 21 + ra.val * 2 ^ 16 + rb.val * 2 ^ 11 := by
  rw [encodeX_eq_wordX, toNat_wordX, BitVec.toNat_ofNat]
  omega

/-- An X form of the table with its Rc bit set is reserved (R44). -/
theorem decodeWord_encodeX_or_one {xo : BitVec 10} (hxo : xo = 215#10 ∨ xo = 247#10) :
    decodeWord .refuse (encodeX xo rs ra rb ||| 1#32) = .error .reservedRcBit := by
  rw [decodeWord_eq_reservedRcBit_iff, not_rcAccepted_refuse_iff, opcdField_or_one, xoField_or_one, opcdField_encodeX,
    xoField_encodeX]
  exact ⟨rfl, hxo, rcField_or_one _⟩

end

end Sys2Proof

namespace Sys2Proof.Machine

open Sys2Proof.Safety

variable {i : Instr} {s t : State}

/-! ### The four meanings -/

/-- A form that runs faults where its address is not admitted. -/
theorem exec_of_not_admitted (hform : FormRuns i s) (hadmit : s.params.admits (eaOf i s).toNat = false) :
    exec i s = .fault (.storeNotAdmitted (eaOf i s)) := by
  rw [exec_eq, if_neg (not_not.mpr hform), if_pos hadmit]

theorem exec_of_not_wellFormed (hform : i.wellFormed = false) (hpolicy : s.params.invalidFormPolicy = .refuse) :
    exec i s = .refused .invalidFormRA0 :=
  exec_eq_invalidFormRA0_iff.mpr (not_formRuns_iff.mpr ⟨hform, hpolicy⟩)

/-- Settles O19: every `stb` is a valid form. -/
theorem stbMeaning : Obligations.StbMeaning := by
  intro rs ra d s
  have hform : FormRuns (.stb rs ra d) s := .inl rfl
  exact ⟨toNat_encodeD 38#6 rs ra d, exists_exec_storeEffect hform, exec_of_not_admitted hform⟩

/-- Settles O20: a `stbu` is a valid form exactly where RA is not 0. -/
theorem stbuMeaning : Obligations.StbuMeaning := by
  intro rs ra d s
  have hform (hra : ra ≠ 0) : FormRuns (.stbu rs ra d) s := .inl (decide_eq_true hra)
  refine ⟨toNat_encodeD 39#6 rs ra d, ?invalid, fun hra => exists_exec_storeEffect (hform hra),
    fun hra => exec_of_not_admitted (hform hra)⟩
  case invalid =>
    rintro rfl hpolicy
    exact exec_of_not_wellFormed rfl hpolicy

/-- Settles O21: every `stbx` with its Rc bit clear is a valid form. -/
theorem stbxMeaning : Obligations.StbxMeaning := by
  intro rs ra rb s
  have hform : FormRuns (.stbx rs ra rb) s := .inl rfl
  exact ⟨toNat_encodeX rs ra rb 215#10, decodeWord_encodeX_or_one rs ra rb (.inl rfl), exists_exec_storeEffect hform,
    exec_of_not_admitted hform⟩

/-- Settles O22: a `stbux` with its Rc bit clear is a valid form exactly where RA is not 0. -/
theorem stbuxMeaning : Obligations.StbuxMeaning := by
  intro rs ra rb s
  have hform (hra : ra ≠ 0) : FormRuns (.stbux rs ra rb) s := .inl (decide_eq_true hra)
  refine ⟨toNat_encodeX rs ra rb 247#10, decodeWord_encodeX_or_one rs ra rb (.inr rfl), ?invalid,
    fun hra => exists_exec_storeEffect (hform hra), fun hra => exec_of_not_admitted (hform hra)⟩
  case invalid =>
    rintro rfl hpolicy
    exact exec_of_not_wellFormed rfl hpolicy

/-! ### The same register in two fields (R60) -/

theorem toNat_effAddr_self (a : Word) : (effAddr a a).toNat = 2 * a.toNat % 2 ^ 32 := by
  rw [toNat_effAddr]
  omega

/-- Where every address is admitted and `pc` is below the top, a valid form completes. -/
theorem exists_exec_of_wellFormed (hform : i.wellFormed = true) (hpc : s.cur.pc.toNat + 4 < 2 ^ 32)
    (hadmit : ∀ a, a < 2 ^ 32 → s.params.admits a) : ∃ t, exec i s = .next t :=
  ⟨_, exec_eq_next_iff.mpr ⟨.inl hform, hadmit _ (eaOf i s).isLt, hpc, rfl⟩⟩

/-- Settles O31: the whole effect is stated with values of the state before, whichever registers coincide. -/
theorem coincidingRegistersUseOldValues : Obligations.CoincidingRegistersUseOldValues := by
  refine ⟨?baseIsSource, ?baseIsSourceIndexed, ?baseIsIndex, ?sourceIsIndex, ?nonUpdate, ?complete, by decide,
    by decide⟩
  case baseIsSource =>
    intro r d s t h
    have heffect := exec_storeEffect h
    exact ⟨heffect.byte, heffect.updated r rfl⟩
  case baseIsSourceIndexed =>
    intro r rb s t h
    have heffect := exec_storeEffect h
    exact ⟨heffect.byte, heffect.updated r rfl, fun hrb => heffect.regs rb (by simpa [updatedReg] using hrb.symm)⟩
  case baseIsIndex =>
    intro rs r s t h
    have heffect := exec_storeEffect h
    exact ⟨heffect.byte, toNat_effAddr_self (readGpr r s), heffect.updated r rfl,
      fun hrs => heffect.regs rs (by simpa [updatedReg] using hrs.symm)⟩
  case sourceIsIndex =>
    intro r ra s t h
    have heffect := exec_storeEffect h
    exact ⟨heffect.byte, heffect.updated ra rfl, fun hra => heffect.regs r (by simpa [updatedReg] using hra)⟩
  case nonUpdate =>
    intro rs ra rb d s t h r
    obtain h | h := h
    · exact (exec_unchanged h).regs r nofun
    · exact (exec_unchanged h).regs r nofun
  case complete =>
    intro rs ra rb d s hpc hadmit
    exact ⟨exists_exec_of_wellFormed rfl hpc hadmit, exists_exec_of_wellFormed rfl hpc hadmit, fun hra =>
      ⟨exists_exec_of_wellFormed (decide_eq_true hra) hpc hadmit,
        exists_exec_of_wellFormed (decide_eq_true hra) hpc hadmit⟩⟩

end Sys2Proof.Machine
end

section
/-!
PROOFS. Faults and refusals of the machine's step (R66): what a step that answers one has come from, and that a thread
with a fault recorded takes no step and keeps its mark (R73).
-/

namespace Sys2Proof.Machine

open Sys2Proof.Safety

variable {s t : State}

/-! ### Passing the turn (R77) -/

theorem tid_giveTurn {k : Nat} (h : k < (threads s).length) : tid (giveTurn k s) = k :=
  List.length_take_of_le (Nat.le_of_lt h)

theorem tid_passTurn_lt (s : State) : tid (passTurn s) < (threads s).length := by
  unfold passTurn
  split
  case isTrue => exact tid_lt_threads_length s
  case isFalse =>
    have hturn : Config.nextThread s.draws % (threads s).length < (threads s).length :=
      Nat.mod_lt _ (threads_length_pos s)
    exact (tid_giveTurn (s := { s with draws := s.draws + 1 }) hturn).trans_lt hturn

/-- Settles O48: the turn goes to a number below that of the threads, and nothing but the focus is rewritten. -/
theorem passingTheTurnChangesNoThread : Obligations.PassingTheTurnChangesNoThread := fun s =>
  ⟨threads_passTurn s, passTurn_mem s, passTurn_resv s, passTurn_launchMem s, passTurn_coherence s,
    passTurn_history s, passTurn_params s, tid_passTurn_lt s⟩

/-! ### Inversion of a step that does not go on -/

section
variable {e : Fault} {q : Refusal} {r : Result}

theorem allFaulted_iff : allFaulted s = true ↔ ∀ th ∈ threads s, th.fault ≠ none := by
  simp [allFaulted, Option.isSome_iff_ne_none]

theorem idle_eq_fault_iff : idle s = .fault e ↔ s.cur.fault = some e ∧ allFaulted s = true := by
  unfold idle
  cases s.cur.fault with
  | none => simp
  | some e' => cases allFaulted s <;> simp

theorem conclude_eq_fault_iff :
    conclude s r = .fault e ↔ r = .fault e ∧ allFaulted (markFault e s) = true := by
  cases r with
  | next u => simp [conclude]
  | fault e' =>
    simp only [conclude, idle_eq_fault_iff, markFault_fault, Option.some.injEq, Host.Outcome.fault.injEq]
    exact and_congr_right fun he => by rw [he]
  | refused q => simp [conclude]

theorem conclude_eq_refused_iff : conclude s r = .refused q ↔ r = .refused q := by
  cases r with
  | next u => simp [conclude]
  | fault e => simp [conclude, idle_not_refused]
  | refused q' => simp [conclude]

/-- A step that answers a fault: the mover's own recorded one, or that of its instruction, and every thread marked. -/
theorem step_eq_fault_iff :
    step s = .fault e ↔
      (s.cur.fault = some e ∧ allFaulted s = true) ∨
      (running s = true ∧ ∃ i, fetchInstr s = .ok i ∧ exec i s = .fault e ∧ allFaulted (markFault e s) = true) := by
  unfold step
  cases hrun : running s with
  | false => simp [idle_eq_fault_iff]
  | true =>
    have hnone : s.cur.fault = none := by
      rw [running_eq, Bool.and_eq_true] at hrun
      exact Option.isNone_iff_eq_none.mp hrun.2
    cases fetchInstr s with
    | error q => simp [hnone]
    | ok i => simp [hnone, conclude_eq_fault_iff]

/-- A step that is refused: the fetch's refusal, or that of the instruction. -/
theorem step_eq_refused_iff :
    step s = .refused q ↔
      running s = true ∧ (fetchInstr s = .error q ∨ ∃ i, fetchInstr s = .ok i ∧ exec i s = .refused q) := by
  unfold step
  cases running s with
  | false => simp [idle_not_refused]
  | true =>
    cases fetchInstr s with
    | error q' => simp
    | ok i => simp [conclude_eq_refused_iff]

end

/-! ### A thread with a fault recorded (R66, R73) -/

theorem running_of_faulted (h : s.cur.fault ≠ none) : running s = false := by
  rw [running_eq, Option.isNone_eq_false_iff.mpr (Option.isSome_iff_ne_none.mpr h), Bool.and_false]

/-- It takes no step: only the turn can pass. -/
theorem step_of_faulted (h : s.cur.fault ≠ none) : step s = idle s := by
  simp [step, running_of_faulted h]

/-- Settles O51: the thread does not run, and whether the turn passes depends on the marks of all threads. -/
theorem faultedThreadTakesNoStep : Obligations.FaultedThreadTakesNoStep := by
  intro s e he
  have hstep : step s = idle s := step_of_faulted (by simp [he])
  refine ⟨?goesOn, fun hall => ?stops⟩
  case goesOn =>
    rintro ⟨th, hth, hnone⟩
    have hleft : ¬allFaulted s = true := fun hall => allFaulted_iff.mp hall th hth hnone
    refine ⟨passTurn s, ?_, threads_passTurn s, ?_⟩
    · rw [hstep, idle_eq_next_iff]
      exact ⟨rfl, fun hstops => hleft hstops.2⟩
    · simp
  case stops => rw [hstep, idle_eq_fault_iff, allFaulted_iff]; exact ⟨he, hall⟩

theorem threads_getElem?_tid (s : State) : (threads s)[tid s]? = some s.cur := by simp [threads, tid]

/-- A marked thread stays as it is: when it moves only the turn passes, and another's step does not touch it. -/
theorem step_keeps_faulted {k : Nat} {th : ThreadState} (h : step s = .next t) (hth : (threads s)[k]? = some th)
    (hfault : th.fault ≠ none) : (threads t)[k]? = some th := by
  obtain rfl | hk := eq_or_ne k (tid s)
  · obtain rfl : s.cur = th := Option.some.inj ((threads_getElem?_tid s).symm.trans hth)
    rw [step_of_faulted hfault] at h
    rw [eq_passTurn_of_idle h, threads_passTurn, hth]
  · rw [(stepLeavesOtherThreads s t h).2 k hk, hth]

theorem others_sublist_threads (s : State) : (s.before ++ s.after).Sublist (threads s) :=
  (List.sublist_cons_self s.cur s.after).append_left s.before

/-- The machine ends in a fault only when no other thread is left to step on (log 11). -/
theorem others_faulted_of_step_eq_fault {e : Fault} (h : step s = .fault e) :
    ∀ th ∈ s.before ++ s.after, th.fault ≠ none := by
  obtain ⟨-, hall⟩ | ⟨-, i, -, -, hall⟩ := step_eq_fault_iff.mp h
  · exact fun th hth => allFaulted_iff.mp hall th ((others_sublist_threads s).subset hth)
  · exact allFaulted_markFault_iff.mp hall

/-- Settles O52: by induction on the run, whose every step leaves a marked thread; and by what a step that faults or is
refused has come from. -/
theorem faultMarksItsThreadForGood : Obligations.FaultMarksItsThreadForGood := by
  refine ⟨fun n s t h k th hth hfault => ?kept, fun s e h => others_faulted_of_step_eq_fault h,
    fun s q h => (step_eq_refused_iff.mp h).1⟩
  case kept =>
    exact run_induction (fun u => (threads u)[k]? = some th) hth
      (fun _ _ _ _ hu hstep => step_keeps_faulted hstep hu hfault) n t h

end Sys2Proof.Machine
end

section
/-!
PROOFS. The order of a step's checks (R69), the fault of a store outside `Admit` (R67), and program text that no store
reaches (R70).
-/

namespace Sys2Proof.Machine

open Sys2Proof.Safety

variable {i : Instr} {s : State}

/-! ### A store outside `Admit` (R67) -/

/-- Settles O33: the address is checked right after the form, and the step of a fault marks its thread. -/
theorem unadmittedStoreFaults : Obligations.UnadmittedStoreFaults := by
  intro i s hform hadmit
  have hexec : exec i s = .fault (.storeNotAdmitted (eaOf i s)) := exec_of_not_admitted hform hadmit
  refine ⟨hexec, fun w hrun hf hd => ?_⟩
  obtain ⟨-, hfault, -⟩ := stepRunsDecodedInstruction s w i hrun hf hd
  exact hfault _ hexec

/-! ### The order of the checks (R69) -/

theorem fetchWord_of_misaligned (h : s.cur.pc.toNat % 4 ≠ 0) : fetchWord s = .error .pcMisaligned := if_pos h

/-- Settles O10: the fetch's three checks, the decoder's two rejections and the instruction's three checks, each in its
own order. -/
theorem stepChecksInOrder : Obligations.StepChecksInOrder := by
  refine ⟨fun s hrun => ⟨fun hpc => ?misaligned, fun hpc hbyte => ?notFetchable, fun hpc hfetch hbyte => ?written,
    fun w hf => ⟨fun v hd => ?notInSpec, fun hd => ?reserved, fun i hd => ?decoded⟩⟩, fun rs rb => ?both⟩
  case misaligned => exact step_of_fetchWord_error hrun (fetchWord_of_misaligned hpc)
  case notFetchable => exact step_of_fetchWord_error hrun (fetchWord_of_not_fetchable hpc hbyte)
  case written => exact step_of_fetchWord_error hrun (fetchWord_of_written hpc hfetch hbyte)
  case notInSpec =>
    obtain ⟨rfl, -⟩ := decodeWord_eq_notInSpec_iff.mp hd
    exact ⟨rfl, step_of_rejected hrun hf hd⟩
  case reserved => exact step_of_rejected hrun hf hd
  case decoded =>
    obtain ⟨hnext, -, hrefused⟩ := stepRunsDecodedInstruction s w i hrun hf hd
    refine ⟨fun hform => ?form, fun hform hadmit => ?address, fun hform hadmit hpc => ?top,
      fun hform hadmit hpc => ?passes⟩
    case form => exact hrefused _ (exec_eq_invalidFormRA0_iff.mpr hform)
    case address => exact (unadmittedStoreFaults i s hform hadmit).2 w hrun hf hd
    case top => exact hrefused _ (pcNeverWraps.1 i s hform hadmit hpc)
    case passes => exact ⟨_, hnext _ (exec_eq_next_iff.mpr ⟨hform, hadmit, hpc, rfl⟩)⟩
  case both => exact decodeWord_encodeX_or_one rs 0 rb (.inr rfl)

/-! ### Program text outside `Admit` (R70) -/

theorem fetchInstr_eq_error_iff {q : Refusal} :
    fetchInstr s = .error q ↔
      fetchWord s = .error q ∨ ∃ w e, Fetches s w ∧ decodeWord s.params.rc1Policy w = .error e ∧ q = refusalOf e := by
  simp only [← fetchWord_eq_ok_iff, fetchInstr]
  cases fetchWord s with
  | error q' => simp
  | ok w => cases hd : decodeWord s.params.rc1Policy w <;> simp [hd, @eq_comm _ q]

theorem written_of_fetchWord (h : fetchWord s = .error .fetchOfWrittenCode) :
    ∃ a ∈ fetchAddrs s, written a s = true := by
  unfold fetchWord at h
  split_ifs at h with _ _ hwritten
  · cases h
  · cases h
  · exact List.any_eq_true.mp hwritten

/-- The two refusals that are an instruction's own. -/
theorem exec_eq_refused {q : Refusal} (h : exec i s = .refused q) : q = .invalidFormRA0 ∨ q = .pcWrap := by
  rw [exec_eq] at h
  split_ifs at h with hform hadmit htop
  · exact .inr (Host.Outcome.refused.inj h).symm
  · exact .inl (Host.Outcome.refused.inj h).symm

/-- Of a step's checks only the third of the fetch answers `FetchOfWrittenCode`. -/
theorem written_of_step (h : step s = .refused .fetchOfWrittenCode) : ∃ a ∈ fetchAddrs s, written a s = true := by
  obtain ⟨-, hfetch | ⟨i, -, hexec⟩⟩ := step_eq_refused_iff.mp h
  · obtain hword | ⟨w, e, -, -, he⟩ := fetchInstr_eq_error_iff.mp hfetch
    · exact written_of_fetchWord hword
    · cases e <;> cases he
  · obtain hq | hq := exec_eq_refused hexec <;> cases hq

theorem admits_of_written {a : Nat} (hs : HistoryAdmitted s) (h : written a s = true) : s.params.admits a = true := by
  obtain ⟨e, he, haddr⟩ := List.any_eq_true.mp h
  exact beq_iff_eq.mp haddr ▸ hs e he

/-- Settles O12: a written byte of the fetch would be an admitted byte of `Code`. -/
theorem codeOutsideAdmitIsNeverWritten : Obligations.CodeOutsideAdmitIsNeverWritten := by
  intro s hs hdisjoint htext h
  obtain ⟨a, ha, hwritten⟩ := written_of_step h
  exact Bool.false_ne_true ((hdisjoint a (htext a ha)).symm.trans (admits_of_written hs hwritten))

end Sys2Proof.Machine
end

section
/-!
PROOFS. The end of a thread's run (R83), and what an update form leaves for the very next instruction (R86).
-/

namespace Sys2Proof.Machine

open Sys2Proof.Safety

variable {i : Instr} {ra : RegNum} {s t : State}

/-! ### A thread at its end (R83) -/

theorem running_of_exited (hend : s.cur.endPc = some s.cur.pc) : running s = false := by
  rw [running_eq, hend, bne_self_eq_false, Bool.false_and]

/-- A thread without a fault that takes no step only lets the turn pass. -/
theorem step_of_not_running (hrun : running s = false) (hfault : s.cur.fault = none) :
    step s = .next (passTurn s) := by
  simp [step, hrun, idle, hfault]

theorem passTurn_of_one_thread (hbefore : s.before = []) (hafter : s.after = []) : passTurn s = s :=
  if_pos (by simp [threads, hbefore, hafter])

/-- Settles O13: the step is the passing of the turn, which leaves the threads and all they share. -/
theorem exitedThreadTakesNoStep : Obligations.ExitedThreadTakesNoStep := by
  intro s hend hfault
  have hstep : step s = .next (passTurn s) := step_of_not_running (running_of_exited hend) hfault
  refine ⟨⟨passTurn s, hstep, threads_passTurn s, ?shared⟩, fun hbefore hafter => ?alone⟩
  case shared => simp
  case alone => rw [hstep, passTurn_of_one_thread hbefore hafter]

/-! ### The next instruction after an update (R86) -/

/-- Of the two sign extensions of a displacement, the 64-bit one cut to 32 bits is the 32-bit one. -/
theorem setWidth_dispValue (d : Disp) : (dispValue d).setWidth 32 = d.signExtend 32 := by
  ext k hk
  simp [dispValue, BitVec.getElem_signExtend, Nat.lt_trans hk]

theorem setWidth_updateValue (ea : Addr) : (updateValue ea).setWidth 32 = ea := by simp [updateValue]

/-- A `stbu` whose base holds what an update form wrote there adds its displacement to that form's address. -/
theorem eaStbu_of_updated {ea : Addr} (hra : readGpr ra t = updateValue ea) (d : Disp) :
    eaStbu ra d t = ea + d.signExtend 32 := by
  rw [eaStbu, hra, effAddr_eq_add_setWidth, setWidth_updateValue, setWidth_dispValue]

theorem readGpr_of_exec_updated (hra : updatedReg i = some ra) (h : exec i s = .next t) :
    readGpr ra t = updateValue (eaOf i s) := (exec_storeEffect h).updated ra hra

/-- Settles O36: the second `stbu` stores one byte further on, so it leaves the first one's byte; over the top of the
space too, since an address and the next one always differ. -/
theorem nextInstructionSeesTheUpdate : Obligations.NextInstructionSeesTheUpdate := by
  refine ⟨fun i rs ra d s t hra h => ?sees, fun rs rs' ra s t u hst htu => ?chain⟩
  case sees =>
    have hbase : readGpr ra t = updateValue (eaOf i s) := readGpr_of_exec_updated hra h
    exact ⟨hbase, eaStbu_of_updated hbase d⟩
  case chain =>
    have hnext : eaOf (.stbu rs' ra 1#16) t = eaOf (.stbu rs ra 1#16) s + 1#32 :=
      eaStbu_of_updated (readGpr_of_exec_updated rfl hst) 1#16
    have hsecond := exec_storeEffect htu
    rw [hnext] at hsecond
    have hne : eaOf (.stbu rs ra 1#16) s ≠ eaOf (.stbu rs ra 1#16) s + 1#32 := by simp
    refine ⟨?_, hsecond.byte, hsecond.updated ra rfl⟩
    rw [hsecond.bytes _ (BitVec.toNat_ne.mp hne)]
    exact (exec_storeEffect hst).byte

end Sys2Proof.Machine
end

section
/-!
PROOFS. Runs under the launch premises of R82: every thread stays in its program text, no byte of `Code` is written, and
so a step can be refused only for a word that is not in the spec or at the top of the space.
-/

namespace Sys2Proof.Machine

open Sys2Proof.Safety

/-! ### Where a run stops -/

section
variable {n : Nat} {s : State}

theorem exists_step_of_run_eq_fault {e : Fault} (h : Host.Core.run Sys2Proof.core n s = .fault e) :
    ∃ (m : Nat) (u : State), Host.Core.run Sys2Proof.core m s = .next u ∧ step u = .fault e := by
  induction n with
  | zero => cases h
  | succ n ih =>
    obtain hrun | ⟨u, hu, hstep⟩ := run_succ_eq_fault h
    · exact ih hrun
    · exact ⟨n, u, hu, hstep⟩

theorem exists_step_of_run_eq_refused {r : Refusal} (h : Host.Core.run Sys2Proof.core n s = .refused r) :
    ∃ (m : Nat) (u : State), Host.Core.run Sys2Proof.core m s = .next u ∧ step u = .refused r := by
  induction n with
  | zero => cases h
  | succ n ih =>
    obtain hrun | ⟨u, hu, hstep⟩ := run_succ_eq_refused h
    · exact ih hrun
    · exact ⟨n, u, hu, hstep⟩

end

/-! ### A thread on its way through its text (R83; log 27) -/

/-- `th` is what the run has made of `th₀`, somewhere in its text or at its end: never behind its start, and not past
an end that lay ahead. -/
structure AlongText (th₀ th : ThreadState) : Prop where
  endPc : th.endPc = th₀.endPc
  fromStart : th₀.pc.toNat ≤ th.pc.toNat
  upToEnd : ∀ e, th₀.endPc = some e → th₀.pc.toNat ≤ e.toNat → th.pc.toNat ≤ e.toNat

/-- A thread of the run has no fault recorded and is on its way from some thread of the launch state. -/
def OnCourse (s : State) (th : ThreadState) : Prop := th.fault = none ∧ ∃ th₀ ∈ threads s, AlongText th₀ th

/-- What a run from `s` keeps under the launch premises. -/
structure KeepsToText (s u : State) : Prop where
  invariants : Invariants u
  params : u.params = s.params
  launchMem : u.launchMem = s.launchMem
  onCourse : ∀ th ∈ threads u, OnCourse s th
  codeUnwritten : ∀ a, s.params.code.any (·.contains a) = true → written a u = false

theorem keepsToText_of_launch {s : State} (hs : Launch s) : KeepsToText s s where
  invariants := invariants_of_launch hs
  params := rfl
  launchMem := rfl
  onCourse th hth := ⟨hs.noFault th hth, th, hth, rfl, le_rfl, fun _ _ hle => hle⟩
  codeUnwritten a _ := fetchOfWrittenCodeIsRefused.1 s hs a

theorem forall_mem_threads {s : State} {p : ThreadState → Prop} :
    (∀ th ∈ threads s, p th) ↔ p s.cur ∧ ∀ th ∈ s.before ++ s.after, p th := by
  simp only [threads, List.forall_mem_append, List.forall_mem_cons]
  exact and_left_comm

/-- A thread that runs is not at its end, and the end is a whole number of words ahead. -/
theorem pc_add_four_le_end {th₀ : ThreadState} {u : State} {e : Addr} (hu : AlongText th₀ u.cur)
    (hrun : running u = true) (hpc : u.cur.pc.toNat % 4 = 0) (he : th₀.endPc = some e) (hend : e.toNat % 4 = 0)
    (hahead : th₀.pc.toNat ≤ e.toNat) : u.cur.pc.toNat + 4 ≤ e.toNat := by
  have hle : u.cur.pc.toNat ≤ e.toNat := hu.upToEnd e he hahead
  have hne : u.cur.pc.toNat ≠ e.toNat := by
    intro heq
    have hexited : u.cur.endPc = some u.cur.pc := by rw [hu.endPc, he, BitVec.eq_of_toNat_eq heq]
    rw [running_of_exited hexited] at hrun
    cases hrun
  omega

theorem mem_fetchAddrs {u : State} {a : Nat} : a ∈ fetchAddrs u ↔ u.cur.pc.toNat ≤ a ∧ a < u.cur.pc.toNat + 4 := by
  simp only [fetchAddrs, List.mem_cons, List.not_mem_nil, or_false]
  omega

/-! ### A word of the text (R45, R82 (4)) -/

/-- Whatever the policy, a word with a reserved Rc bit is one that the default policy refuses. -/
theorem decodeWord_refuse_of_reservedRcBit {p : Rc1Policy} {w : InstrWord}
    (h : decodeWord p w = .error .reservedRcBit) : decodeWord .refuse w = .error .reservedRcBit := by
  obtain ⟨hopcd, hxo, hrc⟩ := decodeWord_eq_reservedRcBit_iff.mp h
  exact decodeWord_eq_reservedRcBit_iff.mpr ⟨hopcd, hxo, fun haccepted => hrc fun hset => haccepted ⟨hset.1, rfl⟩⟩

/-! ### The fetch of such a run -/

section
variable {n : Nat} {i : Instr} {s t u : State} (hs : LaunchPremises s) (hu : KeepsToText s u)
include hs hu

/-- A byte of `Code` is as at launch. -/
theorem read_code {a : Nat} (ha : s.params.code.any (·.contains a) = true) : u.mem.read a = s.mem.read a := by
  have hlaunch : u.mem.read a = u.launchMem.read a :=
    (memoryHoldsACoherentFinalByte u hu.invariants a).2 (hu.codeUnwritten a ha)
  rw [hlaunch, hu.launchMem, hs.launchMem]

/-- The word that a running thread is at lies in the text of a thread of the launch state, and so does the way to the
next word. -/
theorem exists_inText (hrunning : running u = true) :
    ∃ th₀ ∈ threads s, AlongText th₀ u.cur ∧ (∀ a ∈ fetchAddrs u, InText th₀ a) ∧
      ∀ e, th₀.endPc = some e → th₀.pc.toNat ≤ e.toNat → u.cur.pc.toNat + 4 ≤ e.toNat := by
  obtain ⟨-, th₀, hth₀, halong⟩ := hu.onCourse _ (cur_mem_threads u)
  have hpc : u.cur.pc.toNat % 4 = 0 := hu.invariants.pcAligned _ (cur_mem_threads u)
  have hend : ∀ e, th₀.endPc = some e → th₀.pc.toNat ≤ e.toNat → u.cur.pc.toNat + 4 ≤ e.toNat := fun e he =>
    pc_add_four_le_end halong hrunning hpc he (hs.endAligned th₀ hth₀ e he)
  refine ⟨th₀, hth₀, halong, fun a ha => ?_, hend⟩
  have hstart := halong.fromStart
  have htop : u.cur.pc.toNat < 2 ^ 32 := u.cur.pc.isLt
  rw [mem_fetchAddrs] at ha
  exact ⟨by omega, by omega, fun e he hahead => by have := hend e he hahead; omega⟩

/-- No check of the fetch refuses, and the word read is that of the launch state's text. -/
theorem fetches_text (hrunning : running u = true) : Fetches u (s.mem.readWordBE u.cur.pc.toNat) := by
  obtain ⟨th₀, hth₀, -, htext, -⟩ := exists_inText hs hu hrunning
  have hcode : ∀ a ∈ fetchAddrs u, s.params.code.any (·.contains a) = true := fun a ha =>
    hs.textInCode th₀ hth₀ a (htext a ha)
  constructor
  case aligned => exact hu.invariants.pcAligned _ (cur_mem_threads u)
  case fetchable => intro a ha; rw [hu.params, Params.fetchable, hcode a ha, Bool.true_or]
  case notWritten => exact fun a ha => hu.codeUnwritten a (hcode a ha)
  case word =>
    have hbyte : ∀ a ∈ fetchAddrs u, u.mem.read a = s.mem.read a := fun a ha => read_code hs hu (hcode a ha)
    simp only [fetchAddrs, List.forall_mem_cons] at hbyte
    obtain ⟨h0, h1, h2, h3, -⟩ := hbyte
    rw [Memory.readWordBE, Memory.readWordBE, h0, h1, h2, h3]

/-- A running thread fetches a valid form, or a word that is not in the spec. -/
theorem fetchInstr_of_text (hrunning : running u = true) :
    (∃ w, fetchInstr u = .error (.notInSpec w)) ∨ ∃ i, fetchInstr u = .ok i ∧ i.wellFormed = true := by
  have hf : Fetches u (s.mem.readWordBE u.cur.pc.toNat) := fetches_text hs hu hrunning
  obtain ⟨th₀, hth₀, -, htext, -⟩ := exists_inText hs hu hrunning
  have hpc : InText th₀ u.cur.pc.toNat := htext _ (mem_fetchAddrs.mpr ⟨le_rfl, Nat.lt_add_of_pos_right (by decide)⟩)
  cases hd : decodeWord u.params.rc1Policy (s.mem.readWordBE u.cur.pc.toNat) with
  | ok i =>
    refine .inr ⟨i, fetchInstr_of_decoded hf hd, ?_⟩
    rw [hu.params] at hd
    exact hs.validForms th₀ hth₀ _ i hf.aligned hpc hd
  | error e =>
    cases e with
    | notInSpec w => exact .inl ⟨w, fetchInstr_of_rejected hf hd⟩
    | reservedRcBit =>
      exact absurd (decodeWord_refuse_of_reservedRcBit hd) (hs.rcBitsClear th₀ hth₀ _ hf.aligned hpc)

/-! ### The step of such a run -/

/-- The mover stays on course over an instruction: 4 further on it is at its end at most. -/
theorem onCourse_afterStore (hrunning : running u = true) (hpc : u.cur.pc.toNat + 4 < 2 ^ 32) :
    ∀ th ∈ threads (afterStore i u), OnCourse s th := by
  have hothers := (forall_mem_threads.mp hu.onCourse).2
  obtain ⟨th₀, hth₀, halong, -, hend⟩ := exists_inText hs hu hrunning
  have hpc' : (u.cur.pc + 4#32).toNat = u.cur.pc.toNat + 4 := BitVec.toNat_add_of_lt hpc
  refine forall_mem_threads.mpr ⟨⟨?fault, th₀, hth₀, ?endPc, ?fromStart, ?upToEnd⟩, by simpa using hothers⟩
  case fault => rw [afterStore_fault]; exact (hu.onCourse _ (cur_mem_threads u)).1
  case endPc => rw [afterStore_endPc]; exact halong.endPc
  case fromStart => rw [afterStore_pc, hpc']; exact halong.fromStart.trans (Nat.le_add_right _ 4)
  case upToEnd => rw [afterStore_pc, hpc']; exact hend

omit hs in
/-- A store outside `Code` leaves `Code` unwritten. -/
theorem codeUnwritten_afterStore (hea : s.params.code.any (·.contains (eaOf i u).toNat) = false) {a : Nat}
    (ha : s.params.code.any (·.contains a) = true) : written a (afterStore i u) = false := by
  refine Bool.eq_false_iff.mpr fun hwritten => ?_
  obtain rfl | hwritten := written_afterStore_iff.mp hwritten
  · exact Bool.false_ne_true (hea.symm.trans ha)
  · exact Bool.false_ne_true ((hu.codeUnwritten a ha).symm.trans hwritten)

omit hs in
/-- What the invariants of a step leave to show: threads on course, and `Code` unwritten. -/
theorem keepsToText_of_step (hstep : step u = .next t) (honCourse : ∀ th ∈ threads t, OnCourse s th)
    (hcode : ∀ a, s.params.code.any (·.contains a) = true → written a t = false) : KeepsToText s t where
  invariants := step_keeps_invariants hu.invariants hstep
  params := (step_params hstep).trans hu.params
  launchMem := (step_launchMem hstep).trans hu.launchMem
  onCourse := honCourse
  codeUnwritten := hcode

/-- Every outcome of a step of the run: the two refusals the premises do not exclude, or a next state of the kind. -/
theorem step_of_text (hrun : Host.Core.run Sys2Proof.core n s = .next u) :
    (∃ w, step u = .refused (.notInSpec w)) ∨ step u = .refused .pcWrap ∨
      ∃ t, step u = .next t ∧ KeepsToText s t := by
  cases hrunning : running u with
  | false =>
    have hstep : step u = .next (passTurn u) :=
      step_of_not_running hrunning (hu.onCourse _ (cur_mem_threads u)).1
    refine .inr (.inr ⟨_, hstep, keepsToText_of_step hu hstep ?_ ?_⟩)
    · rw [threads_passTurn]; exact hu.onCourse
    · simpa [written] using hu.codeUnwritten
  | true =>
    obtain ⟨w, hw⟩ | ⟨i, hi, hform⟩ := fetchInstr_of_text hs hu hrunning
    · exact .inl ⟨w, step_eq_refused_iff.mpr ⟨hrunning, .inl hw⟩⟩
    · have hreaches : Reaches s (tid u) i u := ⟨⟨n, hrun⟩, rfl, hrunning, hi⟩
      have hadmit : u.params.admits (eaOf i u).toNat = true := by
        rw [hu.params]; exact hs.storesAdmitted _ i u hreaches
      obtain hpc | hpc := Nat.lt_or_ge (u.cur.pc.toNat + 4) (2 ^ 32)
      · have hexec : exec i u = .next (afterStore i u) := exec_eq_next_iff.mpr ⟨.inl hform, hadmit, hpc, rfl⟩
        have hstep : step u = .next (passTurn (settle (afterStore i u))) :=
          step_eq_next_iff.mpr (.inr ⟨hrunning, i, hi, .inl ⟨_, hexec, rfl⟩⟩)
        refine .inr (.inr ⟨_, hstep, keepsToText_of_step hu hstep ?_ fun a ha => ?_⟩)
        · rw [threads_passTurn, threads_settle]; exact onCourse_afterStore hs hu hrunning hpc
        · simpa [written] using codeUnwritten_afterStore hu (hs.storesOutsideCode _ i u hreaches) ha
      · exact .inr (.inl (step_eq_refused_iff.mpr
          ⟨hrunning, .inr ⟨i, hi, pcNeverWraps.1 i u (.inl hform) hadmit hpc⟩⟩))

/-- The same, outcome by outcome. -/
theorem step_of_text_outcomes (hrun : Host.Core.run Sys2Proof.core n s = .next u) :
    (∀ e, step u ≠ .fault e) ∧ (∀ t, step u = .next t → KeepsToText s t) ∧
      ∀ r, step u = .refused r → (∃ w, r = .notInSpec w) ∨ r = .pcWrap := by
  obtain ⟨w, hw⟩ | hwrap | ⟨t, ht, hkeeps⟩ := step_of_text hs hu hrun
  · simp [hw]
  · simp [hwrap]
  · simp [ht, hkeeps]

end

theorem keepsToText_of_run {n : Nat} {s u : State} (hs : LaunchPremises s)
    (h : Host.Core.run Sys2Proof.core n s = .next u) : KeepsToText s u :=
  run_induction (KeepsToText s) (keepsToText_of_launch hs.toLaunch)
    (fun _ _ t hrun hu => (step_of_text_outcomes hs hu hrun).2.1 t) n u h

/-- Settles O56: every state of the run keeps to the text, so its threads have no fault recorded, and the step that
stops the run, where one does, is refused for one of the two reasons. -/
theorem launchPremisesPreventStops : Obligations.LaunchPremisesPreventStops := by
  refine fun s hs n => ⟨fun e h => ?fault, fun t h th hth => ?marked, fun r h => ?refused⟩
  case fault =>
    obtain ⟨m, u, hrun, hstep⟩ := exists_step_of_run_eq_fault h
    obtain ⟨hnoFault, -, -⟩ := step_of_text_outcomes hs (keepsToText_of_run hs hrun) hrun
    exact hnoFault e hstep
  case marked => exact ((keepsToText_of_run hs h).onCourse th hth).1
  case refused =>
    obtain ⟨m, u, hrun, hstep⟩ := exists_step_of_run_eq_refused h
    obtain ⟨-, -, hrefused⟩ := step_of_text_outcomes hs (keepsToText_of_run hs hrun) hrun
    exact hrefused r hstep

end Sys2Proof.Machine
end

section
/-!
PROOFS. The decoding vectors the spec writes out, and the reset state with an instruction placed at its `pc` (log 20).
-/

namespace Sys2Proof

/-- Settles O1: closed words, so the decoder itself answers, one word at a time. -/
theorem specWordsDecode : Obligations.SpecWordsDecode := by
  unfold Obligations.SpecWordsDecode
  refine ⟨?stb, ?stbNegative, ?stbu, ?stbuAllOnes, ?stbx, ?stbux, ?rcSet, ?otherXo⟩ <;> decide

end Sys2Proof

namespace Sys2Proof.Machine

variable {i : Instr} {s : State}

/-! ### A placed instruction runs (log 20) -/

theorem withFetchWord_toNat (w : InstrWord) (s : State) : s.withFetchWord 32 w.toNat = placeAtPc w s := by
  rw [State.withFetchWord, Nat.mod_eq_of_lt w.isLt, BitVec.ofNat_toNat, BitVec.setWidth_eq]

/-- Placing may widen `Code` but leaves `Admit` as it is. -/
theorem admits_placeAtPc (w : InstrWord) (s : State) (a : Nat) :
    (placeAtPc w s).params.admits a = s.params.admits a := by
  show Params.admits (if _ then _ else _) a = s.params.admits a
  split <;> rfl

/-- The fetch reads the placed word, and the word of an instruction decodes to it. -/
theorem fetchInstr_placeAtPc_encode (haligned : s.cur.pc.toNat % 4 = 0) (i : Instr) :
    fetchInstr (placeAtPc (encode i) s) = .ok i :=
  fetchInstr_of_decoded (fetchWord_eq_ok_iff.mp (fetchWord_placeAtPc haligned _)) (encodeThenDecode _ i)

/-- A placed valid form completes where every address is admitted and `pc` is below the top. -/
theorem exists_step_placeAtPc_encode (hform : i.wellFormed = true) (haligned : s.cur.pc.toNat % 4 = 0)
    (hpc : s.cur.pc.toNat + 4 < 2 ^ 32) (hadmit : ∀ a, a < 2 ^ 32 → s.params.admits a = true) :
    ∃ t, step (placeAtPc (encode i) s) = .next t := by
  have hadmit' : ∀ a, a < 2 ^ 32 → (placeAtPc (encode i) s).params.admits a = true := fun a ha =>
    (admits_placeAtPc _ s a).trans (hadmit a ha)
  obtain ⟨t, ht⟩ := exists_exec_of_wellFormed (s := placeAtPc (encode i) s) hform hpc hadmit'
  exact ⟨_, step_eq_next_iff.mpr
    (.inr ⟨running_placeAtPc _ s, i, fetchInstr_placeAtPc_encode haligned i, .inl ⟨t, ht, rfl⟩⟩)⟩

/-! ### The reset state (logs 1, 4) -/

theorem readGpr_reset (r : RegNum) : readGpr r State.reset = 0#64 := Vector.getElem_replicate r.isLt

/-- The one region of `Admit` at reset spans the address space. -/
theorem admits_reset {a : Nat} (ha : a < 2 ^ 32) : State.reset.params.admits a = true := by
  simp only [Params.admits, State.reset, Params.reset, List.any_cons, List.any_nil, Region.contains]
  simpa using Nat.le_of_lt_succ ha

/-- Settles O50: at reset `pc` is aligned and below the top and every address is admitted, so a placed valid form
completes. -/
theorem resetState : Obligations.ResetState := by
  refine ⟨readGpr_reset, rfl, rfl, fun _ => rfl, rfl, rfl, rfl, fun _ => admits_reset, rfl, rfl,
    fun i hform => ?_⟩
  rw [withFetchWord_toNat]
  exact ⟨fetchInstr_placeAtPc_encode (by decide) i,
    exists_step_placeAtPc_encode hform (by decide) (by decide) fun _ => admits_reset⟩

end Sys2Proof.Machine
end
